-- ==== Sys2Proof/Word.lean ====
section
/-! DEFINITION. The one word of the machine: registers, memory cells, operands and addresses are all
8 bits (00_scope.md R6, parameter W). -/

namespace Sys2Proof

/-- A byte, the only datum of this hardware (20_memory.md R33). -/
abbrev Byte := BitVec 8

end Sys2Proof
end

