-- ==== Sys2Proof/Config.lean ====
section
/-! DEFINITION. The implementation parameters of 00_scope.md R6 and the values this hardware takes.
Nothing in the spec leaves a value of the core open, so no parameter is without a body; `MAX_CYCLES`
is the host's and stands outside the core (R6, 92_eei_decisions.md D20). -/

namespace Sys2Proof.Config

/-- `N`, the number of memory cells: addresses 0 to 255 (R6). -/
abbrev memSize : Nat := 256

/-- `R`, the number of registers: indices 0 to 7 (R6). -/
abbrev regCount : Nat := 8

/-- `SPI`, the register index of the stack pointer. UNVERIFIED: decision D4 of the spec (log entry 4); unsafe. -/
def spIndex : Fin regCount := 7

/-- `STACK_BASE`, the reset value of SP and the address from which the stack is empty (R6). -/
def stackBase : Byte := 0xF4#8

/-- `PC_RESET` (R6). -/
def pcReset : Byte := 0x00#8

/-- The content of every cell after reset: "zero-initialized" (10_state.md R18, R21). -/
def memReset : Byte := 0x00#8

/-- The longest instruction, formats F2RR and F2RI (30_encoding.md R51). -/
def maxInstrBytes : Nat := 3

end Sys2Proof.Config
end

