-- ==== Sys2Proof/Machine/State.lean ====
section
/-! DEFINITION. Everything the spec gives the machine: `(x[0..7], pc, FL, RS, M[0..255])` and the output
history `OUT` (10_state.md R10 to R20), and its value after reset (R21). Plain data only. -/

namespace Sys2Proof.Machine

/-- A register index, 0 to 7 (10_state.md R10). -/
abbrev Reg := Fin Config.regCount

/-- The six fault reasons of the hardware (60_exceptions.md R160). They are values of RS: a cycle that
raises one ends in a NEXT state whose RS records it (R165). -/
inductive FaultReason where
  /-- The byte at pc is not one of the 20 opcodes (R161). -/
  | unknownOpcode
  /-- DIV or MOD with a zero divisor (R162). -/
  | divisionByZero
  /-- An address formed from pc exceeds 255 (R163). -/
  | addressOutOfRange
  /-- A register operand byte is 8 or more (R169). -/
  | registerIndexOutOfRange
  /-- PUSH or CALL with SP = 0 (R170). -/
  | stackOverflow
  /-- POP or RET with SP at or above STACK_BASE (R171). -/
  | stackUnderflow
  deriving DecidableEq, Repr

/-- RS, the run state (10_state.md R16). -/
inductive RunState where
  | running
  | halted
  | faulted (reason : FaultReason)
  deriving DecidableEq, Repr

/-- The memory: address and byte pairs, the address strictly rising, no pair whose byte is what an unlisted
address reads as (`Config.memReset`, the reset content of 10_state.md R18). -/
abbrev Memory := List Host.Cell

/-- The canonical form of a memory: equal memories are then equal lists. Every address exists (R18). -/
abbrev Memory.wf (m : Memory) : Prop :=
  m.Pairwise (fun p q => p.1 < q.1) ∧ ∀ c ∈ m, c.1 < Config.memSize ∧ c.2 ≠ Config.memReset

/-- The machine. -/
structure State where
  /-- `x[0]` to `x[7]`; `x[7]` is SP (R10, R11). -/
  regs : Vector Byte 8
  /-- The program counter (R14). -/
  pc : Byte
  /-- FL, the flags register as the byte it is (R15). -/
  fl : Byte
  /-- RS (R16). -/
  rs : RunState
  /-- `M[0]` to `M[255]` (R18). -/
  mem : Memory
  /-- OUT, the bytes delivered on the output port since reset, oldest first (R20). -/
  out : List Byte
  deriving DecidableEq, Repr

/-- The machine right after reset (10_state.md R21, 70_reset_and_hazards.md R190). UNVERIFIED: zero in x[0] to
x[6] and in FL are the spec's decisions D7 and D6 (log entry 5); unsafe. -/
def State.reset : State where
  regs := #v[0x00#8, 0x00#8, 0x00#8, 0x00#8, 0x00#8, 0x00#8, 0x00#8, Config.stackBase]
  pc := Config.pcReset
  fl := 0x00#8
  rs := .running
  mem := []
  out := []

/-- Reasons a step could stop the model. There are none: the spec describes the entry of every fault of
this hardware, so each is taken as a next state (log entry 1, safe). -/
inductive Fault
  deriving DecidableEq, Repr

/-- Requests to which the spec gives no meaning. -/
inductive Refusal where
  /-- An instruction of the table without a meaning: raised by an arm of `exec`, and by none in this model. Safe. -/
  | notModelled (mnemonic : String)
  /-- Raised by the loader, never by an instruction: an image of more than 256 bytes does not fit
  (50_interfaces.md R143). Safe. -/
  | imageTooLong
  /-- Raised by the loader, never by an instruction: a load that is not the one load between reset and the
  first cycle (R142, R143, R149; log entry 12). Safe. -/
  | loadOutOfPhase
  deriving DecidableEq, Repr

end Sys2Proof.Machine
end

