-- ==== Sys2Proof/Machine/Flags.lean ====
section
/-! DEFINITION. FL: its three bits, the comparison that writes it, and the six conditions that read it
(10_state.md R15; 41_alu.md R95; 42_control_flow.md R102 to R107). UNVERIFIED: the bit positions are
decision D5 of the spec (log entry 4); no program can observe them (R15). -/

namespace Sys2Proof.Machine

/-- FL after a comparison that found equality: E alone. -/
def flagE : Byte := 0b00000001#8

/-- FL after a comparison that found greater: G alone. -/
def flagG : Byte := 0b00000010#8

/-- FL after a comparison that found less: L alone. -/
def flagL : Byte := 0b00000100#8

/-- FL from a comparison of two unsigned bytes, all eight bits of it (41_alu.md R95). -/
def compareFlags (x y : Byte) : Byte :=
  if x.toNat = y.toNat then flagE else if x.toNat > y.toNat then flagG else flagL

/-- `FL.E`. -/
def State.eFlag (s : State) : Bool := s.fl.getLsbD 0

/-- `FL.G`. -/
def State.gFlag (s : State) : Bool := s.fl.getLsbD 1

/-- `FL.L`. -/
def State.lFlag (s : State) : Bool := s.fl.getLsbD 2

/-- `FL <- v`. -/
def State.setFlags (s : State) (v : Byte) : State := { s with fl := v }

/-- The four values FL can take (10_state.md R15): nothing set, or exactly one of E, G, L. -/
def flLegal (v : Byte) : Bool := v == 0#8 || v == flagE || v == flagG || v == flagL

end Sys2Proof.Machine
end

