-- ==== Sys2Proof/Syntax.lean ====
section
/-! DEFINITION. The 20 instructions of 00_scope.md R3, one constructor per row of the opcode table.
A register operand is the whole operand byte, used without masking (30_encoding.md R54): whether it
names a register is a check of the instruction cycle (R74), so a term may carry any byte. -/

namespace Sys2Proof

/-- An instruction with its operand bytes. `a` is the first operand byte, `b` the second, `imm` the
immediate of LDI (30_encoding.md R51). -/
inductive Instr where
  | add (a b : Byte)
  | sub (a b : Byte)
  | mul (a b : Byte)
  | div (a b : Byte)
  | mod (a b : Byte)
  | cmp (a b : Byte)
  | jmp (a : Byte)
  | jeq (a : Byte)
  | jne (a : Byte)
  | jgt (a : Byte)
  | jlt (a : Byte)
  | jle (a : Byte)
  | jge (a : Byte)
  | call (a : Byte)
  | ret
  | push (a : Byte)
  | pop (a : Byte)
  | ldi (a imm : Byte)
  | prn (a : Byte)
  | hlt
  deriving DecidableEq, Repr

/-- The operand count `c` of an instruction's format: F0, F1, or F2RR and F2RI (30_encoding.md R51). -/
def Instr.operandCount : Instr → Nat
  | .hlt | .ret => 0
  | .push _ | .pop _ | .prn _ | .call _ => 1
  | .jmp _ | .jeq _ | .jne _ | .jgt _ | .jlt _ | .jle _ | .jge _ => 1
  | .ldi _ _ => 2
  | .add _ _ | .sub _ _ | .mul _ _ | .div _ _ | .mod _ _ | .cmp _ _ => 2

end Sys2Proof
end

