-- ==== Sys2Proof/WellFormed.lean ====
section
/-! DEFINITION. When an instruction's operands are ones the hardware executes: every operand byte its
format declares a register index is below 8 (30_encoding.md R54, R58; 40_execution_cycle.md R74).
The LDI immediate is never checked (R55). -/

namespace Sys2Proof

/-- A legal register operand byte, `0b00000rrr` (30_encoding.md R54). -/
def regByteOk (a : Byte) : Bool := decide (a.toNat < Config.regCount)

/-- The operand bytes an instruction uses as register indices, first operand first (R74). -/
def Instr.registerBytes : Instr → List Byte
  | .add a b | .sub a b | .mul a b | .div a b | .mod a b | .cmp a b => [a, b]
  | .jmp a | .jeq a | .jne a | .jgt a | .jlt a | .jle a | .jge a | .call a => [a]
  | .push a | .pop a | .prn a => [a]
  | .ldi a _ => [a]
  | .ret | .hlt => []

/-- Every register operand byte names a register. -/
def Instr.wellFormed (i : Instr) : Bool := i.registerBytes.all regByteOk

end Sys2Proof
end

