-- ==== Sys2Proof/Decode.lean ====
section
/-! DEFINITION. The decoder, total on any bytes, and the encoder (30_encoding.md). Decoding compares the
whole opcode byte with the 20 assigned values (R52, R56); no other bit of it has a meaning here. -/

namespace Sys2Proof

/-- What the operand bytes of an opcode turn into: formats F0, F1 and the two F2 formats (30_encoding.md R51). -/
inductive Format where
  | f0 (i : Instr)
  | f1 (mk : Byte → Instr)
  | f2 (mk : Byte → Byte → Instr)

/-- Why bytes are no instruction. -/
inductive DecodeError where
  /-- The opcode byte is not one of the 20 (30_encoding.md R57); found before any operand is looked at. -/
  | unknownOpcode
  /-- The bytes end before the instruction does (40_execution_cycle.md R73). -/
  | missingByte
  deriving DecidableEq, Repr

/-- The opcode map of 30_encoding.md R56, in its order. UNVERIFIED: the byte values are decision D1 of the
spec, from general knowledge (log entry 3); unsafe. -/
def opcodeMap : List (Byte × Format) :=
  [(0x01#8, .f0 .hlt), (0x11#8, .f0 .ret)]
  ++ [(0x45#8, .f1 .push), (0x46#8, .f1 .pop), (0x47#8, .f1 .prn), (0x50#8, .f1 .call)]
  ++ [(0x54#8, .f1 .jmp), (0x55#8, .f1 .jeq), (0x56#8, .f1 .jne), (0x57#8, .f1 .jgt),
      (0x58#8, .f1 .jlt), (0x59#8, .f1 .jle), (0x5A#8, .f1 .jge)]
  ++ [(0x82#8, .f2 .ldi)]
  ++ [(0xA0#8, .f2 .add), (0xA1#8, .f2 .sub), (0xA2#8, .f2 .mul), (0xA3#8, .f2 .div),
      (0xA4#8, .f2 .mod), (0xA7#8, .f2 .cmp)]

/-- The entry of an opcode byte, matched on all eight bits (mask 0xFF). -/
def lookupOpcode (op : Byte) : Option Format :=
  (opcodeMap.find? fun row => row.1 == op).map (·.2)

/-- The instruction at the front of a byte sequence, and the bytes after it. Operand bytes are taken as
they stand; the register check is a later stage (40_execution_cycle.md R71, R72, R74). -/
def decode : List Byte → Except DecodeError (Instr × List Byte)
  | [] => .error .missingByte
  | op :: rest =>
    match lookupOpcode op with
    | none => .error .unknownOpcode
    | some (.f0 i) => .ok (i, rest)
    | some (.f1 mk) =>
      match rest with
      | a :: rest => .ok (mk a, rest)
      | [] => .error .missingByte
    | some (.f2 mk) =>
      match rest with
      | a :: b :: rest => .ok (mk a b, rest)
      | _ => .error .missingByte

/-- The bytes of an instruction in ascending address order, opcode first (30_encoding.md R51, R56). -/
def encode : Instr → List Byte
  | .hlt => [0x01#8]
  | .ret => [0x11#8]
  | .push a => [0x45#8, a]
  | .pop a => [0x46#8, a]
  | .prn a => [0x47#8, a]
  | .call a => [0x50#8, a]
  | .jmp a => [0x54#8, a]
  | .jeq a => [0x55#8, a]
  | .jne a => [0x56#8, a]
  | .jgt a => [0x57#8, a]
  | .jlt a => [0x58#8, a]
  | .jle a => [0x59#8, a]
  | .jge a => [0x5A#8, a]
  | .ldi a imm => [0x82#8, a, imm]
  | .add a b => [0xA0#8, a, b]
  | .sub a b => [0xA1#8, a, b]
  | .mul a b => [0xA2#8, a, b]
  | .div a b => [0xA3#8, a, b]
  | .mod a b => [0xA4#8, a, b]
  | .cmp a b => [0xA7#8, a, b]

/-- The bytes of a number laid out as the hardware stores them: the first byte is bits 7..0, the second
bits 15..8, the third bits 23..16. Bits from `nbits` on are zero. -/
def bytesOfTableWord (nbits w : Nat) : List Byte :=
  let v := w % 2 ^ nbits
  (List.range Config.maxInstrBytes).map fun k => BitVec.ofNat 8 (v / 2 ^ (8 * k))

/-- The instruction the decoder reads from a word numbered as spec/opcode_table.json numbers it. -/
def decodeTableWord (nbits w : Nat) : Option Instr :=
  match decode (bytesOfTableWord nbits w) with
  | .ok (i, _) => some i
  | .error _ => none

end Sys2Proof
end

