-- ==== Sys2Proof/Machine/Ops.lean ====
section
/-! DEFINITION. The named operations over memory, the run state and the output, fetching an instruction's
bytes, taking a fault, and stage 5 of the instruction cycle (20_memory.md, 40_execution_cycle.md,
60_exceptions.md). -/

namespace Sys2Proof.Machine

/-! ## Memory (20_memory.md R30, R31) -/

/-- The byte a memory holds at an address; an unlisted address reads as the reset content. -/
def Memory.read : Memory → Nat → Byte
  | [], _ => Config.memReset
  | (k, v) :: rest, a => if k = a then v else Memory.read rest a

/-- The memory with one cell replaced, in canonical form again. -/
def Memory.write : Memory → Nat → Byte → Memory
  | [], a, v => if v = Config.memReset then [] else [(a, v)]
  | (k, w) :: rest, a, v =>
    if a < k then
      if v = Config.memReset then (k, w) :: rest else (a, v) :: (k, w) :: rest
    else if a = k then
      if v = Config.memReset then rest else (a, v) :: rest
    else (k, w) :: Memory.write rest a v

/-- `MemRead(addr, 1)` (R30). -/
def State.memRead (s : State) (addr : Byte) : Byte := s.mem.read addr.toNat

/-- `MemWrite(addr, 1, v)` (R31). -/
def State.memWrite (s : State) (addr v : Byte) : State := { s with mem := s.mem.write addr.toNat v }

/-- The byte at an exactly computed address, if that address exists (R32). -/
def State.memReadExact (s : State) (addr : Nat) : Option Byte :=
  if addr < Config.memSize then some (s.memRead (BitVec.ofNat 8 addr)) else none

/-- The bytes the fetch can see: those at `pc`, `pc + 1`, `pc + 2`, the address sums exact, less those past
the end of memory (40_execution_cycle.md R71 to R73). DEDUCED: reads have no side effect (R30), so
looking at all of them at once is the staged fetch (log entry 8); safe. -/
def State.fetchBytes (s : State) : List Byte :=
  (List.range Config.maxInstrBytes).filterMap fun k => s.memReadExact (s.pc.toNat + k)

/-! ## The program counter and the run state -/

/-- `pc <- target` (10_state.md R14). -/
def State.setPc (s : State) (target : Byte) : State := { s with pc := target }

/-- `RS <- rs` (10_state.md R16). -/
def State.setRs (s : State) (rs : RunState) : State := { s with rs := rs }

/-! ## Output (50_interfaces.md R145) -/

/-- `Emit(v)`: one byte on the output port, appended to OUT (00_scope.md R7). -/
def State.emit (s : State) (v : Byte) : State := { s with out := s.out ++ [v] }

/-! ## Taking a fault (60_exceptions.md R165 to R168) -/

/-- `raise Fault(reason)`: RS records the reason and nothing else changes (R166). There is no handler, no
vector and no return (R167, R168); reset alone leaves the state. -/
def State.takeFault (s : State) (r : FaultReason) : State := s.setRs (.faulted r)

/-- The fault of bytes that are no instruction (40_execution_cycle.md R71, R73). -/
def faultOfDecodeError : DecodeError → FaultReason
  | .unknownOpcode => .unknownOpcode
  | .missingByte => .addressOutOfRange

/-! ## The outcomes of the execute stage and stage 5 (40_execution_cycle.md R75 to R79) -/

/-- How an execute stage that raised no fault asks for the next PC (R75). -/
inductive Flow where
  /-- `Continue`: the instruction did not set PC. -/
  | sequential
  /-- `Jump(target)`. -/
  | jump (target : Byte)
  /-- `Halt`. -/
  | halt
  deriving DecidableEq, Repr

/-- An execute stage: a fault with nothing written, or the state after the instruction's writes and a flow. -/
abbrev ExecResult := Except FaultReason (State × Flow)

/-- The sequential advance after `Continue`: past 255 it is a fault, with the instruction's writes kept and PC
unchanged (R77, R78). -/
def State.advance (s : State) (c : Nat) : State :=
  if s.pc.toNat + c + 1 < Config.memSize then s.setPc (BitVec.ofNat 8 (s.pc.toNat + c + 1))
  else s.takeFault .addressOutOfRange

/-- The state a flow leaves (R76 to R79). -/
def State.follow (s : State) (c : Nat) : Flow → State
  | .sequential => s.advance c
  | .jump target => s.setPc target
  | .halt => s.setRs .halted

/-- The end of a cycle that began in `s` with an instruction of `c` operand bytes (R80). -/
def finish (c : Nat) (s : State) : ExecResult → Host.Outcome State Fault Refusal
  | .error r => .next (s.takeFault r)
  | .ok (t, flow) => .next (t.follow c flow)

end Sys2Proof.Machine
end

