-- ==== Sys2Proof/Machine/Operands.lean ====
section
/-! DEFINITION. The register file's two operations and the two operand forms, register and immediate
(10_state.md R10; 30_encoding.md R54, R55; 40_execution_cycle.md R74). An immediate is its byte as it
stands and needs no operation. -/

namespace Sys2Proof.Machine

/-- `x[r]`: "`get(index) -> value`" (10_state.md R10). No register is hard-wired. -/
def State.getReg (s : State) (r : Reg) : Byte := s.regs[r]

/-- `x[r] <- v`: "`set(index, value)`" (10_state.md R10). -/
def State.setReg (s : State) (r : Reg) (v : Byte) : State := { s with regs := s.regs.set r v }

/-- The stack pointer, R7 (10_state.md R11). -/
def sp : Reg := Config.spIndex

/-- The register an operand byte names, if it names one (30_encoding.md R54). -/
def regOfByte (a : Byte) : Option Reg :=
  if h : a.toNat < Config.regCount then some ⟨a.toNat, h⟩ else none

/-- The operand byte of a register, `0b00000rrr` (30_encoding.md R54). -/
def byteOfReg (r : Reg) : Byte := BitVec.ofNat 8 r.val

/-- The register check of stage 3 in front of an execute stage: a byte of 8 or more ends the cycle with
nothing written (40_execution_cycle.md R74, 60_exceptions.md R169). -/
def withReg (a : Byte) (k : Reg → ExecResult) : ExecResult :=
  match regOfByte a with
  | some r => k r
  | none => .error .registerIndexOutOfRange

/-- The check of two register operands, the first before the second (R74). -/
def withRegs (a b : Byte) (k : Reg → Reg → ExecResult) : ExecResult :=
  withReg a fun ra => withReg b fun rb => k ra rb

end Sys2Proof.Machine
end

