-- ==== Sys2Proof/Machine/Alu.lean ====
section
/-! DEFINITION. ADD, SUB, MUL, DIV, MOD, CMP (41_alu.md). Each result is computed exactly and then reduced
modulo 256 (R12, R99); both sources are read before anything is written (R96). -/

namespace Sys2Proof.Machine

/-- The exact sum modulo 256 (R90). -/
def aluAdd (x y : Byte) : Byte := BitVec.ofNat 8 (x.toNat + y.toNat)

/-- The exact difference modulo 256 (R91). -/
def aluSub (x y : Byte) : Byte := BitVec.ofInt 8 ((x.toNat : Int) - (y.toNat : Int))

/-- The exact unsigned product modulo 256 (R92). -/
def aluMul (x y : Byte) : Byte := BitVec.ofNat 8 (x.toNat * y.toNat)

/-- The unsigned quotient, fraction discarded (R93). -/
def aluDiv (x y : Byte) : Byte := BitVec.ofNat 8 (x.toNat / y.toNat)

/-- The unsigned remainder (R94). -/
def aluMod (x y : Byte) : Byte := BitVec.ofNat 8 (x.toNat % y.toNat)

/-- An ALU operation that cannot fail: `x[a] <- f x[a] x[b]` (R96). -/
def aluStage (f : Byte → Byte → Byte) (a b : Byte) (s : State) : ExecResult :=
  withRegs a b fun ra rb => .ok (s.setReg ra (f (s.getReg ra) (s.getReg rb)), .sequential)

/-- An ALU operation that divides: a zero divisor raises DivisionByZero with nothing written (R93, R94). -/
def divideStage (f : Byte → Byte → Byte) (a b : Byte) (s : State) : ExecResult :=
  withRegs a b fun ra rb =>
    if s.getReg rb = 0#8 then .error .divisionByZero
    else .ok (s.setReg ra (f (s.getReg ra) (s.getReg rb)), .sequential)

/-- The comparison: FL is overwritten, no register is (R95). -/
def compareStage (a b : Byte) (s : State) : ExecResult :=
  withRegs a b fun ra rb => .ok (s.setFlags (compareFlags (s.getReg ra) (s.getReg rb)), .sequential)

/-- ADD a, b (R90). -/
def execAdd (a b : Byte) (s : State) : Host.Outcome State Fault Refusal := finish 2 s (aluStage aluAdd a b s)

/-- SUB a, b (R91). -/
def execSub (a b : Byte) (s : State) : Host.Outcome State Fault Refusal := finish 2 s (aluStage aluSub a b s)

/-- MUL a, b (R92). -/
def execMul (a b : Byte) (s : State) : Host.Outcome State Fault Refusal := finish 2 s (aluStage aluMul a b s)

/-- DIV a, b (R93). -/
def execDiv (a b : Byte) (s : State) : Host.Outcome State Fault Refusal := finish 2 s (divideStage aluDiv a b s)

/-- MOD a, b (R94). -/
def execMod (a b : Byte) (s : State) : Host.Outcome State Fault Refusal := finish 2 s (divideStage aluMod a b s)

/-- CMP a, b (R95). -/
def execCmp (a b : Byte) (s : State) : Host.Outcome State Fault Refusal := finish 2 s (compareStage a b s)

end Sys2Proof.Machine
end

