-- ==== Sys2Proof/Machine/Stack.lean ====
section
/-! DEFINITION. PUSH and POP, and the stack operations they share with CALL and RET (43_stack.md). The steps
of an instruction run in the written order and a later step sees the register writes of an earlier one
(R122), which matters when the operand is SP itself. -/

namespace Sys2Proof.Machine

/-- The address from which the stack counts as empty, the constant of the underflow check (R124). -/
def stackEmptyFrom : Byte := Config.stackBase

/-- The address a push stores to: SP after its decrement (R120). -/
def pushSlot (s : State) : Byte := s.getReg sp - 1#8

/-- The overflow check and the decrement of SP; nothing is written when SP is 0 (R120, R124). -/
def lowerSp (s : State) : Except FaultReason State :=
  if s.getReg sp = 0#8 then .error .stackOverflow else .ok (s.setReg sp (pushSlot s))

/-- The byte at the top of the stack after the underflow check; SP is not moved (R121, R124). -/
def stackTop (s : State) : Except FaultReason Byte :=
  if stackEmptyFrom.toNat ≤ (s.getReg sp).toNat then .error .stackUnderflow
  else .ok (s.memRead (s.getReg sp))

/-- `x[7] <- x[7] + 1`, of the SP that stands in the register now (R121). -/
def raiseSp (s : State) : State := s.setReg sp (s.getReg sp + 1#8)

/-- The execute stage of PUSH: `x[a]` is read after the decrement (R120). -/
def pushStage (a : Byte) (s : State) : ExecResult :=
  withReg a fun ra =>
    match lowerSp s with
    | .error r => .error r
    | .ok t => .ok (t.memWrite (pushSlot s) (t.getReg ra), .sequential)

/-- The execute stage of POP: `x[a]` is written before the increment (R121). -/
def popStage (a : Byte) (s : State) : ExecResult :=
  withReg a fun ra =>
    match stackTop s with
    | .error r => .error r
    | .ok v => .ok (raiseSp (s.setReg ra v), .sequential)

/-- PUSH a (R120). -/
def execPush (a : Byte) (s : State) : Host.Outcome State Fault Refusal := finish 1 s (pushStage a s)

/-- POP a (R121). -/
def execPop (a : Byte) (s : State) : Host.Outcome State Fault Refusal := finish 1 s (popStage a s)

end Sys2Proof.Machine
end

