-- ==== Sys2Proof/Machine/Control.lean ====
section
/-! DEFINITION. JMP, the six conditional jumps, CALL and RET (42_control_flow.md). The register holds the
absolute address of the next instruction; nothing is added to it (R100). -/

namespace Sys2Proof.Machine

/-- A jump taken exactly when a condition holds; the register byte is checked either way (R74, R101 to R107). -/
def jumpStage (taken : Bool) (a : Byte) (s : State) : ExecResult :=
  withReg a fun ra => .ok (s, if taken then .jump (s.getReg ra) else .sequential)

/-- The execute stage of CALL: the return address `pc + 2`, exact; its range check; the overflow check; the
push; then the target, read after the decrement of SP (R108). -/
def callStage (a : Byte) (s : State) : ExecResult :=
  withReg a fun ra =>
    if Config.memSize ≤ s.pc.toNat + 2 then .error .addressOutOfRange
    else
      match lowerSp s with
      | .error r => .error r
      | .ok t => .ok (t.memWrite (pushSlot s) (BitVec.ofNat 8 (s.pc.toNat + 2)), .jump (t.getReg ra))

/-- The execute stage of RET (R109). -/
def retStage (s : State) : ExecResult :=
  match stackTop s with
  | .error r => .error r
  | .ok target => .ok (raiseSp s, .jump target)

/-- JMP a (R101). -/
def execJmp (a : Byte) (s : State) : Host.Outcome State Fault Refusal := finish 1 s (jumpStage true a s)

/-- JEQ a: E set (R102). -/
def execJeq (a : Byte) (s : State) : Host.Outcome State Fault Refusal := finish 1 s (jumpStage s.eFlag a s)

/-- JNE a: E clear (R103). -/
def execJne (a : Byte) (s : State) : Host.Outcome State Fault Refusal := finish 1 s (jumpStage (!s.eFlag) a s)

/-- JGT a: G set (R104). -/
def execJgt (a : Byte) (s : State) : Host.Outcome State Fault Refusal := finish 1 s (jumpStage s.gFlag a s)

/-- JLT a: L set (R105). -/
def execJlt (a : Byte) (s : State) : Host.Outcome State Fault Refusal := finish 1 s (jumpStage s.lFlag a s)

/-- JLE a: L or E set (R106). -/
def execJle (a : Byte) (s : State) : Host.Outcome State Fault Refusal :=
  finish 1 s (jumpStage (s.lFlag || s.eFlag) a s)

/-- JGE a: G or E set (R107). -/
def execJge (a : Byte) (s : State) : Host.Outcome State Fault Refusal :=
  finish 1 s (jumpStage (s.gFlag || s.eFlag) a s)

/-- CALL a (R108). -/
def execCall (a : Byte) (s : State) : Host.Outcome State Fault Refusal := finish 1 s (callStage a s)

/-- RET (R109). -/
def execRet (s : State) : Host.Outcome State Fault Refusal := finish 0 s (retStage s)

end Sys2Proof.Machine
end

