-- ==== Sys2Proof/Machine/LoadPrintHalt.lean ====
section
/-! DEFINITION. LDI, PRN, HLT (44_load_print_halt.md). -/

namespace Sys2Proof.Machine

/-- The execute stage of LDI: every immediate byte is legal (R130; 30_encoding.md R55). -/
def ldiStage (a imm : Byte) (s : State) : ExecResult :=
  withReg a fun ra => .ok (s.setReg ra imm, .sequential)

/-- The execute stage of PRN: the output is delivered within the cycle (R131). -/
def prnStage (a : Byte) (s : State) : ExecResult :=
  withReg a fun ra => .ok (s.emit (s.getReg ra), .sequential)

/-- LDI a, imm (R130). -/
def execLdi (a imm : Byte) (s : State) : Host.Outcome State Fault Refusal := finish 2 s (ldiStage a imm s)

/-- PRN a (R131). -/
def execPrn (a : Byte) (s : State) : Host.Outcome State Fault Refusal := finish 1 s (prnStage a s)

/-- HLT: PC keeps the address of the HLT (R132, 40_execution_cycle.md R79). -/
def execHlt (s : State) : Host.Outcome State Fault Refusal := finish 0 s (.ok (s, .halt))

end Sys2Proof.Machine
end

