-- ==== Sys2Proof/Machine/Step.lean ====
section
/-! DEFINITION. One instruction cycle (40_execution_cycle.md R80), and placing an instruction where the next
cycle fetches it. -/

namespace Sys2Proof.Machine

/-- One step. While RS is `Running`: fetch and decode, then the decoded instruction; bytes that are no
instruction raise their fault with nothing else changed. In a terminal state no architectural state
changes (10_state.md R16, D22; log entry 2). -/
def step (s : State) : Host.Outcome State Fault Refusal :=
  match s.rs with
  | .running =>
    match decode s.fetchBytes with
    | .ok (i, _) => exec i s
    | .error e => .next (s.takeFault (faultOfDecodeError e))
  | .halted => .next s
  | .faulted _ => .next s

/-- The state with an instruction placed where the next step fetches. The three bytes go to `pc`, `pc + 1`,
`pc + 2`; where they would not all exist, to address 0 with `pc` there (where the loader puts a program,
50_interfaces.md R142); RS is `Running`, or no fetch happens (log entry 11). -/
def State.withFetchWord (s : State) (nbits w : Nat) : State :=
  let s := if s.pc.toNat + Config.maxInstrBytes ≤ Config.memSize then s else s.setPc 0#8
  let s := s.setRs .running
  let place (m : Memory) (kv : Byte × Nat) : Memory := m.write (s.pc.toNat + kv.2) kv.1
  { s with mem := (bytesOfTableWord nbits w).zipIdx.foldl place s.mem }

end Sys2Proof.Machine
end

