-- ==== Sys2Proof/Machine/HostPort.lean ====
section
/-! DEFINITION. What surrounds the core: reset, the loader, run enable, status (50_interfaces.md R140 to R149;
70_reset_and_hazards.md R190 to R192). The debug view is `State` itself, read-only (R148). -/

namespace Sys2Proof.Machine

/-! ## The loader (50_interfaces.md R142, R143) -/

/-- Bytes written "at sequentially increasing addresses", the first at `k`. -/
def Memory.writeAll (m : Memory) (k : Nat) : List Byte → Memory
  | [] => m
  | v :: rest => Memory.writeAll (m.write k v) (k + 1) rest

/-- `Load(bytes)`: byte `k` of the image goes to `M[k]`, nothing but memory is touched, and an image of more
than 256 bytes is refused (R142, R143). -/
def State.load (s : State) (image : List Byte) : Host.Outcome State Fault Refusal :=
  if image.length ≤ Config.memSize then .next { s with mem := s.mem.writeAll 0 image }
  else .refused .imageTooLong

/-- The launch state of a program image: reset, then the load (70_reset_and_hazards.md R192). -/
def State.launch (image : List Byte) : Host.Outcome State Fault Refusal := State.reset.load image

/-! ## Status (50_interfaces.md R147, 60_exceptions.md R160) -/

/-- The numeric cause code of a fault reason (R160). -/
def FaultReason.code : FaultReason → Nat
  | .unknownOpcode => 1
  | .divisionByZero => 2
  | .addressOutOfRange => 3
  | .registerIndexOutOfRange => 4
  | .stackOverflow => 5
  | .stackUnderflow => 6

/-- The status signal `rs` (R147). -/
def State.rsSignal (s : State) : Nat :=
  match s.rs with
  | .running => 0
  | .halted => 1
  | .faulted _ => 2

/-- The status signal `fault_code`: 0 when RS is not `Faulted` (R147). -/
def State.faultCode (s : State) : Nat :=
  match s.rs with
  | .running | .halted => 0
  | .faulted r => r.code

/-! ## A host session with the core (50_interfaces.md R149) -/

/-- How far the start-up order has come (70_reset_and_hazards.md R191). -/
inductive Phase where
  /-- After reset, before a load and before any cycle. -/
  | fresh
  /-- After the one load, before any cycle. -/
  | loaded
  /-- A cycle has been asked for while `run` was asserted. -/
  | started
  deriving DecidableEq, Repr

/-- The core with the host's run enable and the phase of the start-up order (log entry 12). -/
structure HostSession where
  core : State
  run : Bool
  phase : Phase
  deriving DecidableEq, Repr

/-- What the host may do (R140). -/
inductive HostEvent where
  /-- `Reset`. -/
  | reset
  /-- `Load(bytes)`. -/
  | load (image : List Byte)
  /-- `run` asserted or withdrawn, between two cycles (R146). -/
  | setRun (on : Bool)
  /-- The time of one instruction cycle passes. -/
  | cycle
  deriving DecidableEq, Repr

/-- The session right after `Reset`; `run` is not asserted until the host asserts it (R191). -/
def HostSession.afterReset : HostSession := { core := State.reset, run := false, phase := .fresh }

/-- The session after a host event (R141, R142, R143, R146, R149). -/
def HostSession.react (h : HostSession) : HostEvent → Host.Outcome HostSession Fault Refusal
  | .reset => .next HostSession.afterReset
  | .load image =>
    if h.phase = .fresh ∧ h.run = false then
      match h.core.load image with
      | .next s => .next { h with core := s, phase := .loaded }
      | .fault r => .fault r
      | .refused r => .refused r
    else .refused .loadOutOfPhase
  | .setRun on => .next { h with run := on }
  | .cycle =>
    if h.run then
      match step h.core with
      | .next s => .next { h with core := s, phase := .started }
      | .fault r => .fault r
      | .refused r => .refused r
    else .next h

end Sys2Proof.Machine
end

