-- ==== Sys2Proof/Safety.lean ====
section
/-! DEFINITION. The terms claims are made in: what a state that a run can be in looks like, what
an outcome holds, and when a run is safe or ends cleanly. -/

namespace Sys2Proof.Machine

/-- The next state an outcome holds, if it holds one. -/
def nextState? : Host.Outcome State Fault Refusal → Option State
  | .next s => some s
  | .fault _ => none
  | .refused _ => none

/-- What every state of a run satisfies: memory in canonical form within the 256 addresses (10_state.md R18)
and FL one of its four values (R15). -/
abbrev State.Inv (s : State) : Prop := s.mem.wf ∧ flLegal s.fl = true

/-- The state after `k` steps. -/
def stateAfter (k : Nat) (s : State) : Option State := nextState? (Sys2Proof.core.run k s)

/-- A safe run of `k` steps: none of its states is `Faulted` (60_exceptions.md R160). -/
def safeFor (k : Nat) (s : State) : Prop :=
  ∀ j ≤ k, ∀ t, stateAfter j s = some t → ∀ r, t.rs ≠ .faulted r

/-- A run from `s` ends cleanly within `k` steps: RS becomes `Halted` (44_load_print_halt.md R132). -/
def haltsWithin (k : Nat) (s : State) : Prop := ∃ t, stateAfter k s = some t ∧ t.rs = .halted

end Sys2Proof.Machine
end

