-- ==== Sys2Proof/Certificates/Slice0/Obligations.lean ====
section
/-! DEFINITION. The statements for the provers, from the numbered rules of spec/. Where a statement rests on
a decision of the spec (92_eei_decisions.md D<n>) its docstring names it. -/

open Sys2Proof Sys2Proof.Machine

namespace Sys2Proof.Claims

/-! ## Words the statements share -/

/-- Every register but those listed is unchanged. -/
def SameRegsBut (ds : List Reg) (s t : State) : Prop := ∀ r, r ∉ ds → t.getReg r = s.getReg r

/-- Every byte of memory reads as before. -/
def SameMemory (s t : State) : Prop := ∀ a, t.memRead a = s.memRead a

/-- Every byte of memory but the one at `slot` reads as before. -/
def SameMemoryBut (slot : Byte) (s t : State) : Prop := ∀ a, a ≠ slot → t.memRead a = s.memRead a

/-- PC and RS after the outcome `Continue` of an instruction of `n` bytes (40_execution_cycle.md R77, R78). -/
def AfterContinue (n : Nat) (s t : State) : Prop :=
  (s.pc.toNat + n ≤ 255 → t.pc.toNat = s.pc.toNat + n ∧ t.rs = s.rs) ∧
  (255 < s.pc.toNat + n → t.pc = s.pc ∧ t.rs = .faulted .addressOutOfRange)

/-- The state in which a fault raised with nothing written leaves the machine (60_exceptions.md R166). -/
def faultedWith (r : FaultReason) (s : State) : State := { s with rs := .faulted r }

/-- The 20 assigned opcode bytes, written out from 30_encoding.md R56. -/
def assignedOpcodes : List Byte :=
  [0x01, 0x11, 0x45, 0x46, 0x47, 0x50, 0x54, 0x55, 0x56, 0x57, 0x58, 0x59, 0x5A, 0x82, 0xA0, 0xA1, 0xA2,
    0xA3, 0xA4, 0xA7]

/-- The registers an instruction may write, the right column of the table of 10_state.md R13. -/
def writtenRegisters : Instr → List Reg
  | .add a _ | .sub a _ | .mul a _ | .div a _ | .mod a _ => (regOfByte a).toList
  | .ldi a _ => (regOfByte a).toList
  | .pop a => (regOfByte a).toList ++ [7]
  | .push _ | .call _ | .ret => [7]
  | .cmp _ _ | .prn _ | .hlt => []
  | .jmp _ | .jeq _ | .jne _ | .jgt _ | .jlt _ | .jle _ | .jge _ => []

/-- The conditional jumps, the only readers of FL (10_state.md R15). -/
def readsFlags : Instr → Bool
  | .jeq _ | .jne _ | .jgt _ | .jlt _ | .jle _ | .jge _ => true
  | .add _ _ | .sub _ _ | .mul _ _ | .div _ _ | .mod _ _ | .cmp _ _ => false
  | .jmp _ | .call _ | .ret | .push _ | .pop _ | .ldi _ _ | .prn _ | .hlt => false

/-- CMP, the only writer of FL (10_state.md R15). -/
def writesFlags : Instr → Bool
  | .cmp _ _ => true
  | .add _ _ | .sub _ _ | .mul _ _ | .div _ _ | .mod _ _ => false
  | .jmp _ | .jeq _ | .jne _ | .jgt _ | .jlt _ | .jle _ | .jge _ => false
  | .call _ | .ret | .push _ | .pop _ | .ldi _ _ | .prn _ | .hlt => false

/-- Whether an instruction that raises no fault ends in `Continue`, from FL alone (40_execution_cycle.md R77;
42_control_flow.md R102 to R107). -/
def continues (fl : Byte) : Instr → Bool
  | .add _ _ | .sub _ _ | .mul _ _ | .div _ _ | .mod _ _ | .cmp _ _ => true
  | .ldi _ _ | .prn _ | .push _ | .pop _ => true
  | .jeq _ => !fl.getLsbD 0
  | .jne _ => fl.getLsbD 0
  | .jgt _ => !fl.getLsbD 1
  | .jlt _ => !fl.getLsbD 2
  | .jle _ => !(fl.getLsbD 2 || fl.getLsbD 0)
  | .jge _ => !(fl.getLsbD 1 || fl.getLsbD 0)
  | .jmp _ | .call _ | .ret | .hlt => false

/-- The check of an instruction's own, in its execute stage (60_exceptions.md R164, step 4). -/
def ownFault (s : State) : Instr → Option FaultReason
  | .div _ b | .mod _ b => if (regOfByte b).any (fun r => s.getReg r == 0) then some .divisionByZero else none
  | .push _ => if s.getReg 7 = 0 then some .stackOverflow else none
  | .pop _ | .ret => if 0xF4 ≤ (s.getReg 7).toNat then some .stackUnderflow else none
  | .call _ =>
    if 255 < s.pc.toNat + 2 then some .addressOutOfRange
    else if s.getReg 7 = 0 then some .stackOverflow else none
  | .add _ _ | .sub _ _ | .mul _ _ | .cmp _ _ | .ldi _ _ | .prn _ | .hlt => none
  | .jmp _ | .jeq _ | .jne _ | .jgt _ | .jlt _ | .jle _ | .jge _ => none

/-- The fault a cycle of a decoded instruction raises, in the order of 60_exceptions.md R164, steps 3 to 5. -/
def instrFault (s : State) (i : Instr) : Option FaultReason :=
  if i.wellFormed = false then some .registerIndexOutOfRange
  else
    match ownFault s i with
    | some r => some r
    | none =>
      if continues s.fl i = true ∧ 255 < s.pc.toNat + i.operandCount + 1 then some .addressOutOfRange else none

/-- The fault a cycle raises, in the order of 60_exceptions.md R164, steps 1 to 5. -/
def firstFault (s : State) : Option FaultReason :=
  if s.memRead s.pc ∉ assignedOpcodes then some .unknownOpcode
  else if 255 < s.pc.toNat + ((s.memRead s.pc).extractLsb 7 6).toNat then some .addressOutOfRange
  else
    match decode s.fetchBytes with
    | .ok (i, _) => instrFault s i
    | .error _ => none

/-- What a register-writing ALU instruction does: its encoding, and `x[a] <- v mod 256` with everything else
of its frame. -/
def AluWrites (op : Byte) (mk : Byte → Byte → Instr) (f : Int → Int → Int) (s : State) (ra rb : Reg) : Prop :=
  encode (mk (byteOfReg ra) (byteOfReg rb)) = [op, byteOfReg ra, byteOfReg rb] ∧
  ∃ t, exec (mk (byteOfReg ra) (byteOfReg rb)) s = .next t ∧
    ((t.getReg ra).toNat : Int) = f (s.getReg ra).toNat (s.getReg rb).toNat % 256 ∧
    SameRegsBut [ra] s t ∧ t.fl = s.fl ∧ SameMemory s t ∧ t.out = s.out ∧ AfterContinue 3 s t

/-- What a conditional jump does when its condition on FL is `cond`. -/
def JumpsExactlyWhen (op : Byte) (mk : Byte → Instr) (cond : Byte → Bool) : Prop :=
  ∀ (s : State) (ra : Reg), encode (mk (byteOfReg ra)) = [op, byteOfReg ra] ∧
    ∃ t, exec (mk (byteOfReg ra)) s = .next t ∧
      (cond s.fl = true → t.pc = s.getReg ra ∧ t.rs = s.rs) ∧
      (cond s.fl = false → AfterContinue 2 s t) ∧
      SameRegsBut [] s t ∧ t.fl = s.fl ∧ SameMemory s t ∧ t.out = s.out

/-- After CMP of two registers, the jump goes to `x[c]` exactly when the order relation holds. -/
def BranchesOnOrder (mk : Byte → Instr) (rel : Nat → Nat → Prop) : Prop :=
  ∀ (s : State) (ra rb rc : Reg), s.pc.toNat + 5 ≤ 255 →
    ∃ t u, exec (.cmp (byteOfReg ra) (byteOfReg rb)) s = .next t ∧ exec (mk (byteOfReg rc)) t = .next u ∧
      (rel (s.getReg ra).toNat (s.getReg rb).toNat → u.pc = s.getReg rc) ∧
      (¬ rel (s.getReg ra).toNat (s.getReg rb).toNat → u.pc.toNat = s.pc.toNat + 5)

end Sys2Proof.Claims

open Sys2Proof.Claims

/-! ## Encoding -/

/-- Decoding is exactly the inverse of encoding: bytes decode to an instruction with a remainder precisely when
they are its encoding followed by that remainder. (30_encoding.md R50, R51, R56; the byte values are D1.) -/
def Obligations.DecodeIsInverseOfEncode : Prop :=
  ∀ (i : Instr) (bs rest : List Byte), decode bs = .ok (i, rest) ↔ bs = encode i ++ rest

/-- Words written out bit by bit from 30_encoding.md R56, one of each format and family, decode to the instruction
they stand for. The byte values are decision D1 of the spec. -/
def Obligations.SpecWordsDecode : Prop :=
  decode [0b00000001] = .ok (.hlt, []) ∧
  decode [0b00010001] = .ok (.ret, []) ∧
  decode [0b01000101, 3] = .ok (.push 3, []) ∧
  decode [0b01010000, 1] = .ok (.call 1, []) ∧
  decode [0b01010110, 2] = .ok (.jne 2, []) ∧
  decode [0b10000010, 0, 8] = .ok (.ldi 0 8, []) ∧
  decode [0b10100001, 0, 1] = .ok (.sub 0 1, []) ∧
  decode [0b10100111, 6, 7] = .ok (.cmp 6 7, [])

/-- The constraint on the opcode assignment (30_encoding.md R53): bits [7:6] of an opcode are the operand count of
the instruction, and two instructions never share an opcode byte. -/
def Obligations.OpcodeCarriesOperandCount : Prop :=
  ∀ i : Instr, ∃ op operands, encode i = op :: operands ∧ operands.length = i.operandCount ∧
    (op.extractLsb 7 6).toNat = i.operandCount ∧
    ∀ j : Instr, (encode j).head? = some op → j.ctorIdx = i.ctorIdx

/-! ## The instruction cycle -/

/-- A running machine whose fetched bytes decode to a well-formed instruction steps as that instruction
(40_execution_cycle.md R80). -/
def Obligations.StepRunsDecodedInstruction : Prop :=
  ∀ (s : State) (i : Instr) (rest : List Byte), s.rs = .running → decode s.fetchBytes = .ok (i, rest) →
    i.wellFormed = true → step s = exec i s

/-- A running machine whose memory holds the encoding of an instruction from `pc` on, all of it below address
256, steps as that instruction (40_execution_cycle.md R71, R72, R80). -/
def Obligations.StepRunsInstructionInMemory : Prop :=
  ∀ (s : State) (i : Instr), s.rs = .running → s.pc.toNat + i.operandCount ≤ 255 →
    (∀ k b, (encode i)[k]? = some b → s.memRead (BitVec.ofNat 8 (s.pc.toNat + k)) = b) →
    step s = exec i s

/-- An opcode byte that is none of the 20 raises UnknownOpcode, whatever follows it and whatever its count field,
with nothing but RS changed (40_execution_cycle.md R71, 60_exceptions.md R161). -/
def Obligations.UnassignedOpcodeFaults : Prop :=
  ∀ s : State, s.rs = .running → s.memRead s.pc ∉ assignedOpcodes →
    step s = .next (faultedWith .unknownOpcode s)

/-- A known opcode whose last operand byte would lie beyond address 255 raises AddressOutOfRange before anything is
written; the sum is exact (40_execution_cycle.md R73; decision D10). -/
def Obligations.OperandFetchPastEndFaults : Prop :=
  ∀ s : State, s.rs = .running → s.memRead s.pc ∈ assignedOpcodes →
    255 < s.pc.toNat + ((s.memRead s.pc).extractLsb 7 6).toNat →
    step s = .next (faultedWith .addressOutOfRange s)

/-- A register operand byte of 8 or more raises RegisterIndexOutOfRange with nothing written, before the
instruction's own checks and whether or not a jump would be taken (40_execution_cycle.md R74; decision D11). -/
def Obligations.RegisterByteOutOfRangeFaults : Prop :=
  ∀ (i : Instr) (s : State), (∃ b ∈ i.registerBytes, 8 ≤ b.toNat) →
    exec i s = .next (faultedWith .registerIndexOutOfRange s)

/-- An instruction that ends in `Continue` and has no successor below address 256 keeps every write it makes
elsewhere in memory, and enters Faulted(AddressOutOfRange) with PC unchanged (40_execution_cycle.md R78; D9). -/
def Obligations.AdvancePastEndKeepsWrites : Prop :=
  ∀ (i : Instr) (s u : State) (p : Byte), continues s.fl i = true → s.rs = .running →
    255 < s.pc.toNat + i.operandCount + 1 → p.toNat + i.operandCount + 1 ≤ 255 →
    exec i { s with pc := p } = .next u → u.rs = .running →
    exec i s = .next { u with pc := s.pc, rs := .faulted .addressOutOfRange }

/-- Every step answers a next state: a cycle completes one instruction or takes one fault, and a terminal state
stays (40_execution_cycle.md R70, R80; log entries 1 and 2). -/
def Obligations.StepAlwaysAnswersNext : Prop := ∀ s : State, ∃ t, step s = .next t

/-! ## ALU -/

/-- ADD, SUB and MUL write the exact result modulo 256 to `x[a]`, for every pair of registers, the same one and SP
included; FL, memory, output and the other registers stay (41_alu.md R90, R91, R92; wraparound is D2). -/
def Obligations.AddSubMulWriteResultModulo256 : Prop :=
  ∀ (s : State) (ra rb : Reg),
    AluWrites 0xA0 .add (· + ·) s ra rb ∧ AluWrites 0xA1 .sub (· - ·) s ra rb ∧ AluWrites 0xA2 .mul (· * ·) s ra rb

/-- DIV and MOD write the unsigned quotient and remainder for a non-zero divisor, and raise DivisionByZero with
nothing written for a zero one (41_alu.md R93, R94; D3). -/
def Obligations.DivModDivideOrFault : Prop :=
  ∀ (s : State) (ra rb : Reg),
    (s.getReg rb ≠ 0 → AluWrites 0xA3 .div (· / ·) s ra rb ∧ AluWrites 0xA4 .mod (· % ·) s ra rb) ∧
    (s.getReg rb = 0 →
      exec (.div (byteOfReg ra) (byteOfReg rb)) s = .next (faultedWith .divisionByZero s) ∧
      exec (.mod (byteOfReg ra) (byteOfReg rb)) s = .next (faultedWith .divisionByZero s))

/-- CMP overwrites all of FL with E, G or L alone, from the unsigned order of the two values, whatever FL held, and
writes nothing else (41_alu.md R95; the bit positions are D5, unsignedness D25). -/
def Obligations.CmpOverwritesFlags : Prop :=
  ∀ (s : State) (ra rb : Reg),
    encode (.cmp (byteOfReg ra) (byteOfReg rb)) = [0xA7, byteOfReg ra, byteOfReg rb] ∧
    ∃ t, exec (.cmp (byteOfReg ra) (byteOfReg rb)) s = .next t ∧
      ((s.getReg ra).toNat = (s.getReg rb).toNat → t.fl = 0b00000001) ∧
      ((s.getReg rb).toNat < (s.getReg ra).toNat → t.fl = 0b00000010) ∧
      ((s.getReg ra).toNat < (s.getReg rb).toNat → t.fl = 0b00000100) ∧
      SameRegsBut [] s t ∧ SameMemory s t ∧ t.out = s.out ∧ AfterContinue 3 s t

/-- DIV and MOD of the same operands agree: the dividend is quotient times divisor plus remainder, and the
remainder is below the divisor (41_alu.md R99). -/
def Obligations.DivAndModAgree : Prop :=
  ∀ (s : State) (ra rb : Reg), s.getReg rb ≠ 0 →
    ∃ q m, exec (.div (byteOfReg ra) (byteOfReg rb)) s = .next q ∧
      exec (.mod (byteOfReg ra) (byteOfReg rb)) s = .next m ∧
      (s.getReg ra).toNat = (q.getReg ra).toNat * (s.getReg rb).toNat + (m.getReg ra).toNat ∧
      (m.getReg ra).toNat < (s.getReg rb).toNat

/-! ## Control flow -/

/-- JMP sets PC to the register's value, with no advance and nothing else changed (42_control_flow.md R101). -/
def Obligations.JmpSetsPcToRegister : Prop :=
  ∀ (s : State) (ra : Reg), encode (.jmp (byteOfReg ra)) = [0x54, byteOfReg ra] ∧
    exec (.jmp (byteOfReg ra)) s = .next { s with pc := s.getReg ra }

/-- Each conditional jump goes to `x[a]` exactly on its flag condition and else falls through; no register, flag or
byte of memory changes (42_control_flow.md R102 to R107; FL bits L 2, G 1, E 0 are D5). -/
def Obligations.ConditionalJumpsFollowFlags : Prop :=
  JumpsExactlyWhen 0x55 .jeq (fun fl => fl.getLsbD 0) ∧
  JumpsExactlyWhen 0x56 .jne (fun fl => !fl.getLsbD 0) ∧
  JumpsExactlyWhen 0x57 .jgt (fun fl => fl.getLsbD 1) ∧
  JumpsExactlyWhen 0x58 .jlt (fun fl => fl.getLsbD 2) ∧
  JumpsExactlyWhen 0x59 .jle (fun fl => fl.getLsbD 2 || fl.getLsbD 0) ∧
  JumpsExactlyWhen 0x5A .jge (fun fl => fl.getLsbD 1 || fl.getLsbD 0)

/-- A CMP and the jump after it branch exactly when the order relation of the jump holds between the compared values
(42_control_flow.md R110). -/
def Obligations.CompareThenJumpBranchesOnOrder : Prop :=
  BranchesOnOrder .jeq (fun x y => x = y) ∧ BranchesOnOrder .jne (fun x y => x ≠ y) ∧
  BranchesOnOrder .jgt (fun x y => x > y) ∧ BranchesOnOrder .jlt (fun x y => x < y) ∧
  BranchesOnOrder .jle (fun x y => x ≤ y) ∧ BranchesOnOrder .jge (fun x y => x ≥ y)

/-- CALL: its two checks in order, and else the return address `pc + 2` stored at SP - 1, SP lowered, and PC set to
the register's value read after SP was lowered; nothing else changes (42_control_flow.md R108; D10, D12, D17). -/
def Obligations.CallPushesReturnAddressAndJumps : Prop :=
  ∀ (s : State) (ra : Reg), encode (.call (byteOfReg ra)) = [0x50, byteOfReg ra] ∧
    (255 < s.pc.toNat + 2 → exec (.call (byteOfReg ra)) s = .next (faultedWith .addressOutOfRange s)) ∧
    (s.pc.toNat + 2 ≤ 255 → s.getReg 7 = 0 →
      exec (.call (byteOfReg ra)) s = .next (faultedWith .stackOverflow s)) ∧
    (s.pc.toNat + 2 ≤ 255 → s.getReg 7 ≠ 0 → s.mem.wf →
      ∃ t, exec (.call (byteOfReg ra)) s = .next t ∧
        (t.getReg 7).toNat = (s.getReg 7).toNat - 1 ∧ t.getReg 7 = pushSlot s ∧
        (t.memRead (pushSlot s)).toNat = s.pc.toNat + 2 ∧ t.pc = t.getReg ra ∧
        SameRegsBut [7] s t ∧ SameMemoryBut (pushSlot s) s t ∧ t.fl = s.fl ∧ t.rs = s.rs ∧ t.out = s.out)

/-- RET: StackUnderflow at or above 0xF4, and else PC set to the byte at SP and SP raised, memory as it was
(42_control_flow.md R109; D12). -/
def Obligations.RetPopsIntoPc : Prop :=
  ∀ s : State, encode .ret = [0x11] ∧
    (0xF4 ≤ (s.getReg 7).toNat → exec .ret s = .next (faultedWith .stackUnderflow s)) ∧
    ((s.getReg 7).toNat < 0xF4 →
      ∃ t, exec .ret s = .next t ∧ t.pc = s.memRead (s.getReg 7) ∧
        (t.getReg 7).toNat = (s.getReg 7).toNat + 1 ∧
        SameRegsBut [7] s t ∧ SameMemory s t ∧ t.fl = s.fl ∧ t.rs = s.rs ∧ t.out = s.out)

/-- A CALL and, after a routine that restores SP and leaves the stored return address, a RET: control comes back to
the instruction after the CALL with SP at its depth before it and the routine's register values
(42_control_flow.md R111). -/
def Obligations.CallThenRetReturns : Prop :=
  ∀ (s t u : State) (ra : Reg), s.mem.wf → s.pc.toNat + 2 ≤ 255 → 0 < (s.getReg 7).toNat → (s.getReg 7).toNat ≤ 0xF4 →
    exec (.call (byteOfReg ra)) s = .next t →
    u.getReg 7 = t.getReg 7 → u.memRead (pushSlot s) = t.memRead (pushSlot s) →
    ∃ v, exec .ret u = .next v ∧ v.pc.toNat = s.pc.toNat + 2 ∧ v.getReg 7 = s.getReg 7 ∧ SameRegsBut [7] u v

/-! ## Stack -/

/-- PUSH: StackOverflow when SP is 0, and else SP lowered and `x[a]`, read after that, stored at the new SP: PUSH R7
stores the lowered SP (43_stack.md R120; D12, D17). -/
def Obligations.PushLowersSpThenStores : Prop :=
  ∀ (s : State) (ra : Reg), encode (.push (byteOfReg ra)) = [0x45, byteOfReg ra] ∧
    (s.getReg 7 = 0 → exec (.push (byteOfReg ra)) s = .next (faultedWith .stackOverflow s)) ∧
    (s.getReg 7 ≠ 0 → s.mem.wf →
      ∃ t, exec (.push (byteOfReg ra)) s = .next t ∧
        (t.getReg 7).toNat = (s.getReg 7).toNat - 1 ∧ t.getReg 7 = pushSlot s ∧
        t.memRead (pushSlot s) = t.getReg ra ∧
        SameRegsBut [7] s t ∧ SameMemoryBut (pushSlot s) s t ∧ t.fl = s.fl ∧ t.out = s.out ∧ AfterContinue 2 s t)

/-- POP: StackUnderflow at or above 0xF4, and else the byte at SP loaded into `x[a]` and then SP raised: POP R7 leaves
one more than the byte, modulo 256 (43_stack.md R121; D12, D17). -/
def Obligations.PopLoadsThenRaisesSp : Prop :=
  ∀ (s : State) (ra : Reg), encode (.pop (byteOfReg ra)) = [0x46, byteOfReg ra] ∧
    (0xF4 ≤ (s.getReg 7).toNat → exec (.pop (byteOfReg ra)) s = .next (faultedWith .stackUnderflow s)) ∧
    ((s.getReg 7).toNat < 0xF4 →
      ∃ t, exec (.pop (byteOfReg ra)) s = .next t ∧
        (ra ≠ 7 → t.getReg ra = s.memRead (s.getReg 7) ∧ (t.getReg 7).toNat = (s.getReg 7).toNat + 1) ∧
        (ra = 7 → (t.getReg 7).toNat = ((s.memRead (s.getReg 7)).toNat + 1) % 256) ∧
        SameRegsBut [ra, 7] s t ∧ SameMemory s t ∧ t.fl = s.fl ∧ t.out = s.out ∧ AfterContinue 2 s t)

/-- PUSH r and then POP r', neither naming SP and neither faulting, move the value of r to r' and leave SP as it was
(43_stack.md R125). -/
def Obligations.PushThenPopMovesValue : Prop :=
  ∀ (s : State) (ra rb : Reg), s.mem.wf → ra ≠ 7 → rb ≠ 7 → s.pc.toNat + 4 ≤ 255 →
    0 < (s.getReg 7).toNat → (s.getReg 7).toNat ≤ 0xF4 →
    ∃ t u, exec (.push (byteOfReg ra)) s = .next t ∧ exec (.pop (byteOfReg rb)) t = .next u ∧
      u.getReg rb = s.getReg ra ∧ u.getReg 7 = s.getReg 7 ∧ SameRegsBut [rb] s u

/-- A byte a PUSH stores at the address of the next instruction is the opcode byte the next cycle fetches
(20_memory.md R41; D18). -/
def Obligations.PushedByteIsFetchedNext : Prop :=
  ∀ (s t : State) (ra : Reg), s.mem.wf → s.getReg 7 ≠ 0 → ra ≠ 7 → exec (.push (byteOfReg ra)) s = .next t →
    t.pc = pushSlot s → t.fetchBytes.head? = some (s.getReg ra)

/-! ## LDI, PRN, HLT -/

/-- LDI writes the immediate byte as it stands and nothing else, and a PRN of the register after it delivers exactly
that byte, for all 256 immediates and all 8 registers (44_load_print_halt.md R130). -/
def Obligations.LdiLoadsImmediate : Prop :=
  ∀ (s : State) (ra : Reg) (imm : Byte), encode (.ldi (byteOfReg ra) imm) = [0x82, byteOfReg ra, imm] ∧
    ∃ t, exec (.ldi (byteOfReg ra) imm) s = .next t ∧ t.getReg ra = imm ∧
      SameRegsBut [ra] s t ∧ t.fl = s.fl ∧ SameMemory s t ∧ t.out = s.out ∧ AfterContinue 3 s t ∧
      ∃ u, exec (.prn (byteOfReg ra)) t = .next u ∧ u.out = s.out ++ [imm]

/-- PRN appends the register's value to the output and changes nothing else (44_load_print_halt.md R131; D16). -/
def Obligations.PrnEmitsRegister : Prop :=
  ∀ (s : State) (ra : Reg), encode (.prn (byteOfReg ra)) = [0x47, byteOfReg ra] ∧
    ∃ t, exec (.prn (byteOfReg ra)) s = .next t ∧ t.out = s.out ++ [s.getReg ra] ∧
      SameRegsBut [] s t ∧ t.fl = s.fl ∧ SameMemory s t ∧ AfterContinue 2 s t

/-- HLT makes RS `Halted` and changes nothing else, PC included, at every address (44_load_print_halt.md R132; D14).
The last clause, that further steps answer the state HLT leaves, is the model's choice: log entry 2 (DEDUCED, from
10_state.md R16). -/
def Obligations.HltHaltsInPlace : Prop :=
  ∀ s : State, encode .hlt = [0x01] ∧ exec .hlt s = .next { s with rs := .halted } ∧
    ∀ k, Sys2Proof.core.run k { s with rs := .halted } = .next { s with rs := .halted }

/-! ## The whole machine -/

/-- In a terminal state no architectural state changes, however many steps are asked for (10_state.md R16; D22). That
a step there answers the state itself is the model's choice: log entry 2 (DEDUCED). -/
def Obligations.TerminalStatesAreFrozen : Prop :=
  ∀ (k : Nat) (s : State), s.rs ≠ .running → Sys2Proof.core.run k s = .next s

/-- Taking a fault writes RS and nothing else, with the one exception of the advance past the end of memory: there the
instruction has written what it writes elsewhere in memory (at address 0, say), and PC alone is held back
(60_exceptions.md R166; D13). -/
def Obligations.FaultsArePrecise : Prop :=
  ∀ (s t : State) (r : FaultReason), s.rs = .running → step s = .next t → t.rs = .faulted r →
    t = faultedWith r s ∨
    (r = .addressOutOfRange ∧
      ∃ i rest u, decode s.fetchBytes = .ok (i, rest) ∧ continues s.fl i = true ∧ s.pc.toNat + i.operandCount = 255 ∧
        exec i { s with pc := 0 } = .next u ∧ u.rs = .running ∧
        t = { u with pc := s.pc, rs := .faulted .addressOutOfRange })

/-- A cycle reports at most one fault, the first that applies in the order of the stages: unknown opcode, operand
fetch, register check, the instruction's own check, PC update (60_exceptions.md R164; D15). -/
def Obligations.FirstFaultInStageOrder : Prop :=
  ∀ (s t : State) (r : FaultReason), s.rs = .running → step s = .next t →
    (t.rs = .faulted r ↔ firstFault s = some r)

/-- `Halted` is entered by HLT only, with nothing else changed (10_state.md R16). -/
def Obligations.OnlyHltReachesHalted : Prop :=
  ∀ s t : State, s.rs = .running → step s = .next t → t.rs = .halted →
    s.memRead s.pc = 0x01 ∧ t = { s with rs := .halted }

/-- A step that changes FL runs a CMP (10_state.md R15). -/
def Obligations.OnlyCmpWritesFlags : Prop :=
  ∀ s t : State, step s = .next t → t.fl ≠ s.fl → s.memRead s.pc = 0xA7

/-- FL is read by the conditional jumps and by nothing else: any other instruction does the same from any value of FL,
which it keeps unless it is a CMP that completes (10_state.md R15). -/
def Obligations.OnlyConditionalJumpsReadFlags : Prop :=
  ∀ (i : Instr) (s t : State) (f : Byte), readsFlags i = false → exec i s = .next t →
    exec i { s with fl := f } = .next { t with fl := if writesFlags i && i.wellFormed then t.fl else f }

/-- A step that changes a byte of memory runs PUSH or CALL, and the byte is the one just below SP
(10_state.md R18, 20_memory.md R43). -/
def Obligations.OnlyPushAndCallWriteMemory : Prop :=
  ∀ (s t : State) (a : Byte), step s = .next t → t.memRead a ≠ s.memRead a →
    (s.memRead s.pc = 0x45 ∨ s.memRead s.pc = 0x50) ∧ a = pushSlot s

/-- A register that the table of 10_state.md R13 does not give an instruction to write is unchanged by it, whether it
completes or faults. -/
def Obligations.RegistersChangeAsTabled : Prop :=
  ∀ (i : Instr) (s t : State), exec i s = .next t → SameRegsBut (writtenRegisters i) s t

/-- A step leaves the output as it was or runs a PRN that appends its register's value; no other instruction produces
output (50_interfaces.md R145, 44_load_print_halt.md R131). -/
def Obligations.OnlyPrnProducesOutput : Prop :=
  ∀ s t : State, step s = .next t →
    t.out = s.out ∨
    ∃ a ra rest, decode s.fetchBytes = .ok (.prn a, rest) ∧ regOfByte a = some ra ∧ t.out = s.out ++ [s.getReg ra]

/-- No instruction reads the output history: from any other history a step does the same and appends the same bytes
(10_state.md R20). -/
def Obligations.OutputHistoryIsNeverRead : Prop :=
  ∀ s t : State, step s = .next t →
    ∃ emitted, t.out = s.out ++ emitted ∧
      ∀ o, step { s with out := o } = .next { t with out := o ++ emitted }

/-- The invariant of the model is kept by every step: memory in canonical form within the 256 addresses, and FL one of
its four values (10_state.md R15, R18). -/
def Obligations.StepKeepsInvariant : Prop := ∀ s t : State, s.Inv → step s = .next t → t.Inv

/-- The invariant holds at reset. -/
def Obligations.ResetMeetsInvariant : Prop := State.reset.Inv

/-! ## Reset, the loader and the host -/

/-- The reset state, every piece of it (10_state.md R21; zero in x[0] to x[6] is D7, zero in FL is D6). -/
def Obligations.ResetState : Prop :=
  (∀ r : Reg, State.reset.getReg r = if r = 7 then 0xF4 else 0) ∧ State.reset.pc = 0 ∧ State.reset.fl = 0 ∧
  State.reset.rs = .running ∧ (∀ a, State.reset.memRead a = 0) ∧ State.reset.out = []

/-- The launch state of a program image of at most 256 bytes (70_reset_and_hazards.md R192; D6, D7). -/
def Obligations.LaunchState : Prop :=
  ∀ P : List Byte, P.length ≤ 256 →
    ∃ s, State.launch P = .next s ∧ (∀ k : Byte, s.memRead k = P.getD k.toNat 0) ∧
      (∀ r : Reg, s.getReg r = if r = 7 then 0xF4 else 0) ∧ s.pc = 0 ∧ s.fl = 0 ∧ s.rs = .running ∧
      s.out = [] ∧ s.Inv

/-- An image of more than 256 bytes is refused by the loader (50_interfaces.md R143; D24). -/
def Obligations.LoaderRefusesLongImage : Prop :=
  ∀ (s : State) (P : List Byte), 256 < P.length → s.load P = .refused .imageTooLong

/-- The empty image leaves memory all zero, so the first cycle faults with UnknownOpcode (50_interfaces.md R143). -/
def Obligations.EmptyImageFaultsAtOnce : Prop :=
  State.launch [] = .next State.reset ∧ step State.reset = .next (faultedWith .unknownOpcode State.reset)

/-- Reset gives the reset state whatever the current state, and no other host event makes a terminal state run again
(50_interfaces.md R141). -/
def Obligations.ResetAloneLeavesTerminalStates : Prop :=
  ∀ h : HostSession,
    (∃ h', h.react .reset = .next h' ∧ h'.core = State.reset) ∧
    ∀ e h', e ≠ .reset → h.react e = .next h' → h.core.rs ≠ .running → h'.core.rs = h.core.rs

/-- While `run` is withdrawn, no cycle happens and all state stays; while it is asserted, a cycle is one step of the
core (50_interfaces.md R146). -/
def Obligations.RunEnableGatesCycles : Prop :=
  ∀ h : HostSession, (h.run = false → h.react .cycle = .next h) ∧
    (h.run = true → ∀ s, step h.core = .next s → ∃ h', h.react .cycle = .next h' ∧ h'.core = s ∧ h'.run = true)

/-- The fault codes and the status signals (60_exceptions.md R160, 50_interfaces.md R147; the numbers are D21). -/
def Obligations.StatusTellsHowARunEnded : Prop :=
  ∀ s : State,
    (s.rs = .running → s.rsSignal = 0 ∧ s.faultCode = 0) ∧ (s.rs = .halted → s.rsSignal = 1 ∧ s.faultCode = 0) ∧
    (s.rs = .faulted .unknownOpcode → s.rsSignal = 2 ∧ s.faultCode = 1) ∧
    (s.rs = .faulted .divisionByZero → s.rsSignal = 2 ∧ s.faultCode = 2) ∧
    (s.rs = .faulted .addressOutOfRange → s.rsSignal = 2 ∧ s.faultCode = 3) ∧
    (s.rs = .faulted .registerIndexOutOfRange → s.rsSignal = 2 ∧ s.faultCode = 4) ∧
    (s.rs = .faulted .stackOverflow → s.rsSignal = 2 ∧ s.faultCode = 5) ∧
    (s.rs = .faulted .stackUnderflow → s.rsSignal = 2 ∧ s.faultCode = 6)
end

