-- ==== Sys2Proof/Laws/State.lean ====
section
/-! SUPPORT. One lemma per field per update of the state, so that no proof unfolds a record update. -/

namespace Sys2Proof.Machine

variable (s : State) (r : Reg) (v w : Byte) (rs : RunState) (e : FaultReason)

/-! ## setReg -/

@[simp] theorem setReg_pc : (s.setReg r v).pc = s.pc := rfl
@[simp] theorem setReg_fl : (s.setReg r v).fl = s.fl := rfl
@[simp] theorem setReg_rs : (s.setReg r v).rs = s.rs := rfl
@[simp] theorem setReg_mem : (s.setReg r v).mem = s.mem := rfl
@[simp] theorem setReg_out : (s.setReg r v).out = s.out := rfl
@[simp] theorem setReg_memRead : (s.setReg r v).memRead w = s.memRead w := rfl

@[simp] theorem getReg_setReg_same : (s.setReg r v).getReg r = v := by
  simp [State.setReg, State.getReg]

theorem getReg_setReg_other {r q : Reg} (h : q ≠ r) : (s.setReg r v).getReg q = s.getReg q := by
  have : r.val ≠ q.val := fun e => h (Fin.ext e.symm)
  simp [State.setReg, State.getReg, this]

theorem getReg_setReg (q : Reg) : (s.setReg r v).getReg q = if q = r then v else s.getReg q := by
  split
  · subst q; exact getReg_setReg_same s r v
  · exact getReg_setReg_other s v ‹_›

/-! ## setFlags -/

@[simp] theorem setFlags_fl : (s.setFlags v).fl = v := rfl
@[simp] theorem setFlags_pc : (s.setFlags v).pc = s.pc := rfl
@[simp] theorem setFlags_rs : (s.setFlags v).rs = s.rs := rfl
@[simp] theorem setFlags_mem : (s.setFlags v).mem = s.mem := rfl
@[simp] theorem setFlags_out : (s.setFlags v).out = s.out := rfl
@[simp] theorem setFlags_getReg : (s.setFlags v).getReg r = s.getReg r := rfl
@[simp] theorem setFlags_memRead : (s.setFlags v).memRead w = s.memRead w := rfl

/-! ## memWrite -/

@[simp] theorem memWrite_mem : (s.memWrite v w).mem = s.mem.write v.toNat w := rfl
@[simp] theorem memWrite_pc : (s.memWrite v w).pc = s.pc := rfl
@[simp] theorem memWrite_fl : (s.memWrite v w).fl = s.fl := rfl
@[simp] theorem memWrite_rs : (s.memWrite v w).rs = s.rs := rfl
@[simp] theorem memWrite_out : (s.memWrite v w).out = s.out := rfl
@[simp] theorem memWrite_getReg : (s.memWrite v w).getReg r = s.getReg r := rfl

/-! ## emit -/

@[simp] theorem emit_out : (s.emit v).out = s.out ++ [v] := rfl
@[simp] theorem emit_pc : (s.emit v).pc = s.pc := rfl
@[simp] theorem emit_fl : (s.emit v).fl = s.fl := rfl
@[simp] theorem emit_rs : (s.emit v).rs = s.rs := rfl
@[simp] theorem emit_mem : (s.emit v).mem = s.mem := rfl
@[simp] theorem emit_getReg : (s.emit v).getReg r = s.getReg r := rfl
@[simp] theorem emit_memRead : (s.emit v).memRead w = s.memRead w := rfl

/-! ## setPc -/

@[simp] theorem setPc_pc : (s.setPc v).pc = v := rfl
@[simp] theorem setPc_fl : (s.setPc v).fl = s.fl := rfl
@[simp] theorem setPc_rs : (s.setPc v).rs = s.rs := rfl
@[simp] theorem setPc_mem : (s.setPc v).mem = s.mem := rfl
@[simp] theorem setPc_out : (s.setPc v).out = s.out := rfl
@[simp] theorem setPc_getReg : (s.setPc v).getReg r = s.getReg r := rfl
@[simp] theorem setPc_memRead : (s.setPc v).memRead w = s.memRead w := rfl

/-! ## setRs and takeFault -/

@[simp] theorem setRs_rs : (s.setRs rs).rs = rs := rfl
@[simp] theorem setRs_pc : (s.setRs rs).pc = s.pc := rfl
@[simp] theorem setRs_fl : (s.setRs rs).fl = s.fl := rfl
@[simp] theorem setRs_mem : (s.setRs rs).mem = s.mem := rfl
@[simp] theorem setRs_out : (s.setRs rs).out = s.out := rfl
@[simp] theorem setRs_getReg : (s.setRs rs).getReg r = s.getReg r := rfl
@[simp] theorem setRs_memRead : (s.setRs rs).memRead w = s.memRead w := rfl

@[simp] theorem takeFault_rs : (s.takeFault e).rs = .faulted e := rfl
@[simp] theorem takeFault_pc : (s.takeFault e).pc = s.pc := rfl
@[simp] theorem takeFault_fl : (s.takeFault e).fl = s.fl := rfl
@[simp] theorem takeFault_mem : (s.takeFault e).mem = s.mem := rfl
@[simp] theorem takeFault_out : (s.takeFault e).out = s.out := rfl
@[simp] theorem takeFault_getReg : (s.takeFault e).getReg r = s.getReg r := rfl
@[simp] theorem takeFault_memRead : (s.takeFault e).memRead w = s.memRead w := rfl

/-! ## raiseSp -/

@[simp] theorem raiseSp_pc : (raiseSp s).pc = s.pc := rfl
@[simp] theorem raiseSp_fl : (raiseSp s).fl = s.fl := rfl
@[simp] theorem raiseSp_rs : (raiseSp s).rs = s.rs := rfl
@[simp] theorem raiseSp_mem : (raiseSp s).mem = s.mem := rfl
@[simp] theorem raiseSp_out : (raiseSp s).out = s.out := rfl
@[simp] theorem raiseSp_memRead : (raiseSp s).memRead w = s.memRead w := rfl
@[simp] theorem raiseSp_getReg_sp : (raiseSp s).getReg sp = s.getReg sp + 1#8 := getReg_setReg_same _ _ _

theorem raiseSp_getReg_other {q : Reg} (h : q ≠ sp) : (raiseSp s).getReg q = s.getReg q :=
  getReg_setReg_other _ _ h

/-! ## Two states with the same parts are the same state -/

theorem state_ext {s t : State} (hr : ∀ r, s.getReg r = t.getReg r) (hp : s.pc = t.pc) (hf : s.fl = t.fl)
    (hs : s.rs = t.rs) (hm : s.mem = t.mem) (ho : s.out = t.out) : s = t := by
  have hregs : s.regs = t.regs := Vector.ext fun i hi => hr ⟨i, hi⟩
  cases s; cases t; simp_all

end Sys2Proof.Machine
end

