-- ==== Sys2Proof/Laws/Memory.lean ====
section
/-! SUPPORT. The laws of memory: read after write, and that every operation keeps the canonical form
(20_memory.md R30, R31). -/

namespace Sys2Proof.Machine

/-- A cell below every listed one reads as the reset content. -/
theorem Memory.read_of_below {m : Memory} {a : Nat} (h : ∀ c ∈ m, a < c.1) : m.read a = Config.memReset := by
  induction m with
  | nil => rfl
  | cons c rest ih =>
    have hc := h c (by simp)
    simp only [Memory.read]
    rw [if_neg (by omega)]
    exact ih fun d hd => h d (by simp [hd])

/-- A write leaves every other cell alone, in any form of the memory (R31). -/
theorem Memory.read_write_other {a b : Nat} (v : Byte) (h : b ≠ a) :
    ∀ m : Memory, (m.write a v).read b = m.read b
  | [] => by
    simp only [Memory.write]
    split
    · rfl
    · simp [Memory.read, Ne.symm h]
  | (k, w) :: rest => by
    have ih := Memory.read_write_other v h rest
    simp only [Memory.write]
    split
    · split
      · rfl
      · simp [Memory.read, Ne.symm h]
    · split
      · subst k
        split
        · simp [Memory.read, Ne.symm h]
        · simp [Memory.read, Ne.symm h]
      · simp only [Memory.read, ih]

/-- A write's cells are the written one and cells that were there. -/
theorem Memory.mem_write {a : Nat} {v : Byte} {c : Host.Cell} :
    ∀ {m : Memory}, c ∈ m.write a v → (c = (a, v) ∧ v ≠ Config.memReset) ∨ c ∈ m
  | [], h => by
    simp only [Memory.write] at h
    split at h <;> simp_all
  | (k, w) :: rest, h => by
    have ih := @Memory.mem_write a v c rest
    simp only [Memory.write] at h
    split at h
    · split at h <;> simp_all
    · split at h
      · split at h
        · exact .inr (by simp [h])
        · rcases List.mem_cons.1 h with h | h
          · exact .inl ⟨by simp [h, ‹a = k›], ‹_›⟩
          · exact .inr (by simp [h])
      · rcases List.mem_cons.1 h with h | h
        · exact .inr (by simp [h])
        · rcases ih h with h | h
          · exact .inl h
          · exact .inr (by simp [h])

/-- The tail of a canonical memory lies above its head. -/
theorem Memory.wf_cons {k : Nat} {w : Byte} {rest : Memory} (h : Memory.wf ((k, w) :: rest)) :
    (∀ c ∈ rest, k < c.1) ∧ Memory.wf rest ∧ k < Config.memSize ∧ w ≠ Config.memReset := by
  obtain ⟨hp, hc⟩ := h
  rw [List.pairwise_cons] at hp
  exact ⟨fun c hcm => hp.1 c hcm, ⟨hp.2, fun c hcm => hc c (by simp [hcm])⟩, hc (k, w) (by simp)⟩

/-- A write is read back (R30, R31). -/
theorem Memory.read_write_same (a : Nat) (v : Byte) :
    ∀ {m : Memory}, m.wf → (m.write a v).read a = v
  | [], _ => by
    simp only [Memory.write]
    split
    · simp_all [Memory.read]
    · simp [Memory.read]
  | (k, w) :: rest, h => by
    obtain ⟨hlt, hrest, -, -⟩ := Memory.wf_cons h
    have ih := Memory.read_write_same a v hrest
    simp only [Memory.write]
    split
    · have hbelow : ∀ c ∈ rest, a < c.1 := fun c hc => by have := hlt c hc; omega
      split
      · simp only [Memory.read]
        rw [if_neg (by omega), Memory.read_of_below hbelow, ‹v = _›]
      · simp [Memory.read]
    · split
      · subst k
        split
        · rw [Memory.read_of_below hlt, ‹v = _›]
        · simp [Memory.read]
      · simp only [Memory.read]
        rw [if_neg (by omega)]
        exact ih

/-- A write keeps the canonical form. -/
theorem Memory.write_wf {a : Nat} (v : Byte) (ha : a < Config.memSize) :
    ∀ {m : Memory}, m.wf → (m.write a v).wf
  | [], _ => by
    simp only [Memory.write]
    split
    · exact ⟨List.Pairwise.nil, by simp⟩
    · exact ⟨by simp, by simp_all⟩
  | (k, w) :: rest, h => by
    obtain ⟨hlt, hrest, hk, hw⟩ := Memory.wf_cons h
    have ih := Memory.write_wf v ha hrest
    simp only [Memory.write]
    split
    · split
      · exact h
      · refine ⟨List.pairwise_cons.2 ⟨fun c hc => ?_, h.1⟩, fun c hc => ?_⟩
        · rcases List.mem_cons.1 hc with hc | hc
          · subst hc; assumption
          · have := hlt c hc; show a < c.1; omega
        · rcases List.mem_cons.1 hc with hc | hc
          · subst hc; exact ⟨ha, ‹_›⟩
          · exact h.2 c hc
    · split
      · subst k
        split
        · exact hrest
        · refine ⟨List.pairwise_cons.2 ⟨fun c hc => hlt c hc, hrest.1⟩, fun c hc => ?_⟩
          rcases List.mem_cons.1 hc with hc | hc
          · subst hc; exact ⟨ha, ‹_›⟩
          · exact hrest.2 c hc
      · refine ⟨List.pairwise_cons.2 ⟨fun c hc => ?_, ih.1⟩, fun c hc => ?_⟩
        · rcases Memory.mem_write hc with ⟨rfl, -⟩ | hc
          · show k < a; omega
          · exact hlt c hc
        · rcases List.mem_cons.1 hc with hc | hc
          · subst hc; exact ⟨hk, hw⟩
          · exact ih.2 c hc

/-- The load of bytes keeps the canonical form. -/
theorem Memory.writeAll_wf :
    ∀ (bytes : List Byte) (k : Nat) {m : Memory}, m.wf → k + bytes.length ≤ Config.memSize →
      (m.writeAll k bytes).wf
  | [], _, _, h, _ => h
  | v :: rest, k, _, h, hk =>
    Memory.writeAll_wf rest (k + 1) (Memory.write_wf v (by simp only [List.length_cons] at hk; omega) h)
      (by simp only [List.length_cons] at hk; omega)

/-- A cell below the load's first address is left alone. -/
theorem Memory.read_writeAll_below {a : Nat} :
    ∀ (bytes : List Byte) (k : Nat) (m : Memory), a < k → (m.writeAll k bytes).read a = m.read a
  | [], _, _, _ => rfl
  | v :: rest, k, m, h => by
    rw [Memory.writeAll, Memory.read_writeAll_below rest (k + 1) _ (by omega),
      Memory.read_write_other v (by omega)]

/-- Byte `j` of a load lies `j` cells above its first address; what the load does not reach is as before
(50_interfaces.md R142). -/
theorem Memory.read_writeAll (j : Nat) :
    ∀ (bytes : List Byte) (k : Nat) {m : Memory}, m.wf → k + bytes.length ≤ Config.memSize →
      (m.writeAll k bytes).read (k + j) = (bytes[j]?).getD (m.read (k + j)) := by
  induction j with
  | zero =>
    intro bytes k m h hk
    cases bytes with
    | nil => rfl
    | cons v rest =>
      rw [Memory.writeAll, Memory.read_writeAll_below _ _ _ (by omega)]
      simpa using Memory.read_write_same k v h
  | succ j ih =>
    intro bytes k m h hk
    cases bytes with
    | nil => rfl
    | cons v rest =>
      simp only [List.length_cons] at hk
      have := ih rest (k + 1) (Memory.write_wf v (a := k) (by omega) h) (by omega)
      rw [show k + (j + 1) = k + 1 + j by omega, Memory.writeAll, this,
        Memory.read_write_other v (by omega)]
      simp

/-! ## Through the state -/

theorem memRead_memWrite_same {s : State} (h : s.mem.wf) (a v : Byte) : (s.memWrite a v).memRead a = v :=
  Memory.read_write_same _ _ h

theorem memRead_memWrite_other (s : State) {a b : Byte} (v : Byte) (h : b ≠ a) :
    (s.memWrite a v).memRead b = s.memRead b :=
  Memory.read_write_other v (fun e => h (BitVec.eq_of_toNat_eq e)) _

theorem memWrite_wf {s : State} (h : s.mem.wf) (a v : Byte) : (s.memWrite a v).mem.wf :=
  Memory.write_wf v (show a.toNat < 256 from a.isLt) h

end Sys2Proof.Machine
end

