-- ==== Sys2Proof/Laws/Ops.lean ====
section
/-! SUPPORT. One lemma per shared operation that says everything it can do: the register check, the PC update,
the end of a cycle, the stack operations. -/

namespace Sys2Proof.Machine

/-! ## Operands (30_encoding.md R54, 40_execution_cycle.md R74) -/

@[simp] theorem regOfByte_byteOfReg (r : Reg) : regOfByte (byteOfReg r) = some r := by
  revert r; decide

/-- A byte names a register exactly when it is a legal register operand. -/
theorem regOfByte_eq_none (a : Byte) : regOfByte a = none ↔ regByteOk a = false := by
  unfold regOfByte regByteOk
  split <;> simp_all

/-- The register a legal byte names is the one of that index. -/
theorem byteOfReg_of_regOfByte {a : Byte} {r : Reg} (h : regOfByte a = some r) : byteOfReg r = a := by
  unfold regOfByte at h
  split at h
  · simp only [Option.some.injEq] at h
    subst h
    exact BitVec.eq_of_toNat_eq (by simp [byteOfReg])
  · simp at h

@[simp] theorem withReg_byteOfReg (r : Reg) (k : Reg → ExecResult) : withReg (byteOfReg r) k = k r := by
  simp [withReg]

@[simp] theorem withRegs_byteOfReg (ra rb : Reg) (k : Reg → Reg → ExecResult) :
    withRegs (byteOfReg ra) (byteOfReg rb) k = k ra rb := by
  simp [withRegs]

theorem withReg_bad {a : Byte} (h : regByteOk a = false) (k : Reg → ExecResult) :
    withReg a k = .error .registerIndexOutOfRange := by
  simp [withReg, (regOfByte_eq_none a).2 h]

/-- The register check answers a state only for a byte that names a register. -/
theorem withReg_ok {a : Byte} {k : Reg → ExecResult} {p : State × Flow} (h : withReg a k = .ok p) :
    ∃ r, regOfByte a = some r ∧ k r = .ok p := by
  unfold withReg at h
  split at h
  · exact ⟨_, ‹_›, h⟩
  · simp at h

theorem withRegs_ok {a b : Byte} {k : Reg → Reg → ExecResult} {p : State × Flow}
    (h : withRegs a b k = .ok p) :
    ∃ ra rb, regOfByte a = some ra ∧ regOfByte b = some rb ∧ k ra rb = .ok p := by
  obtain ⟨ra, ha, h⟩ := withReg_ok h
  obtain ⟨rb, hb, h⟩ := withReg_ok h
  exact ⟨ra, rb, ha, hb, h⟩

/-! ## The PC update (40_execution_cycle.md R76 to R79) -/

@[simp] theorem advance_fl (s : State) (c : Nat) : (s.advance c).fl = s.fl := by unfold State.advance; split <;> rfl
@[simp] theorem advance_mem (s : State) (c : Nat) : (s.advance c).mem = s.mem := by unfold State.advance; split <;> rfl
@[simp] theorem advance_out (s : State) (c : Nat) : (s.advance c).out = s.out := by unfold State.advance; split <;> rfl

@[simp] theorem advance_getReg (s : State) (c : Nat) (r : Reg) : (s.advance c).getReg r = s.getReg r := by
  unfold State.advance; split <;> rfl

@[simp] theorem advance_memRead (s : State) (c : Nat) (a : Byte) : (s.advance c).memRead a = s.memRead a := by
  unfold State.advance; split <;> rfl

/-- The advance below the end of memory moves PC and nothing else. -/
theorem advance_inside {s : State} {c : Nat} (h : s.pc.toNat + c + 1 ≤ 255) :
    s.advance c = s.setPc (BitVec.ofNat 8 (s.pc.toNat + c + 1)) :=
  if_pos (show _ < 256 by omega)

/-- The advance past the end of memory is a fault with everything else kept. -/
theorem advance_past {s : State} {c : Nat} (h : 255 < s.pc.toNat + c + 1) :
    s.advance c = s.takeFault .addressOutOfRange :=
  if_neg (show ¬ _ < 256 by omega)

/-- PC and RS after the advance, for every place of the instruction. -/
theorem advance_pc_rs (s : State) (c : Nat) :
    (s.pc.toNat + c + 1 ≤ 255 → (s.advance c).pc.toNat = s.pc.toNat + c + 1 ∧ (s.advance c).rs = s.rs) ∧
    (255 < s.pc.toNat + c + 1 → (s.advance c).pc = s.pc ∧ (s.advance c).rs = .faulted .addressOutOfRange) := by
  refine ⟨fun h => ?_, fun h => ?_⟩
  · rw [advance_inside h]
    refine ⟨?_, rfl⟩
    simp only [setPc_pc, BitVec.toNat_ofNat]
    omega
  · rw [advance_past h]; exact ⟨rfl, rfl⟩

@[simp] theorem follow_sequential (s : State) (c : Nat) : s.follow c .sequential = s.advance c := rfl
@[simp] theorem follow_jump (s : State) (c : Nat) (x : Byte) : s.follow c (.jump x) = s.setPc x := rfl
@[simp] theorem follow_halt (s : State) (c : Nat) : s.follow c .halt = s.setRs .halted := rfl

@[simp] theorem follow_fl (s : State) (c : Nat) (f : Flow) : (s.follow c f).fl = s.fl := by cases f <;> simp
@[simp] theorem follow_mem (s : State) (c : Nat) (f : Flow) : (s.follow c f).mem = s.mem := by cases f <;> simp
@[simp] theorem follow_out (s : State) (c : Nat) (f : Flow) : (s.follow c f).out = s.out := by cases f <;> simp
@[simp] theorem follow_getReg (s : State) (c : Nat) (f : Flow) (r : Reg) :
    (s.follow c f).getReg r = s.getReg r := by cases f <;> simp

/-! ## The end of a cycle (40_execution_cycle.md R80) -/

@[simp] theorem finish_error (c : Nat) (s : State) (r : FaultReason) : finish c s (.error r) = .next (s.takeFault r) := rfl
@[simp] theorem finish_ok (c : Nat) (s t : State) (f : Flow) : finish c s (.ok (t, f)) = .next (t.follow c f) := rfl

/-- The end of a cycle is a next state: the fault's, or the one the flow leaves. -/
theorem finish_next {c : Nat} {s u : State} {x : ExecResult} (h : finish c s x = .next u) :
    (∃ r, x = .error r ∧ u = s.takeFault r) ∨ ∃ t f, x = .ok (t, f) ∧ u = t.follow c f := by
  match x, h with
  | .error r, h => exact .inl ⟨r, rfl, by simpa using h.symm⟩
  | .ok (t, f), h => exact .inr ⟨t, f, rfl, by simpa using h.symm⟩

/-! ## The stack (43_stack.md R122 to R124) -/

/-- Lowering SP faults on 0 and else writes the slot's address to it. -/
theorem lowerSp_cases (s : State) :
    (s.getReg sp = 0#8 ∧ lowerSp s = .error .stackOverflow) ∨
    (s.getReg sp ≠ 0#8 ∧ lowerSp s = .ok (s.setReg sp (pushSlot s))) := by
  unfold lowerSp
  split
  · exact .inl ⟨‹_›, rfl⟩
  · exact .inr ⟨‹_›, rfl⟩

/-- The slot of a push lies one below SP. -/
theorem pushSlot_toNat {s : State} (h : s.getReg sp ≠ 0#8) : (pushSlot s).toNat = (s.getReg sp).toNat - 1 := by
  have : (s.getReg sp).toNat ≠ 0 := fun e => h (BitVec.eq_of_toNat_eq e)
  have := (s.getReg sp).isLt
  unfold pushSlot
  bv_omega

/-- Reading the top of the stack faults from 0xF4 up and else gives the byte at SP. -/
theorem stackTop_cases (s : State) :
    (0xF4 ≤ (s.getReg sp).toNat ∧ stackTop s = .error .stackUnderflow) ∨
    ((s.getReg sp).toNat < 0xF4 ∧ stackTop s = .ok (s.memRead (s.getReg sp))) := by
  have hbase : stackEmptyFrom.toNat = 0xF4 := rfl
  unfold stackTop
  split
  · exact .inl ⟨by omega, rfl⟩
  · exact .inr ⟨by omega, rfl⟩

end Sys2Proof.Machine
end

