-- ==== Sys2Proof/Laws/Exec.lean ====
section
/-! SUPPORT. What an execute stage can do: every meaning is the end of a cycle over one stage, and one
inversion lemma per stage says all its completed outcomes (40_execution_cycle.md R75). -/

namespace Sys2Proof.Machine

/-- The register check and execute stage of an instruction. -/
def execStage : Instr → State → ExecResult
  | .add a b, s => aluStage aluAdd a b s
  | .sub a b, s => aluStage aluSub a b s
  | .mul a b, s => aluStage aluMul a b s
  | .div a b, s => divideStage aluDiv a b s
  | .mod a b, s => divideStage aluMod a b s
  | .cmp a b, s => compareStage a b s
  | .jmp a, s => jumpStage true a s
  | .jeq a, s => jumpStage s.eFlag a s
  | .jne a, s => jumpStage (!s.eFlag) a s
  | .jgt a, s => jumpStage s.gFlag a s
  | .jlt a, s => jumpStage s.lFlag a s
  | .jle a, s => jumpStage (s.lFlag || s.eFlag) a s
  | .jge a, s => jumpStage (s.gFlag || s.eFlag) a s
  | .call a, s => callStage a s
  | .ret, s => retStage s
  | .push a, s => pushStage a s
  | .pop a, s => popStage a s
  | .ldi a imm, s => ldiStage a imm s
  | .prn a, s => prnStage a s
  | .hlt, s => .ok (s, .halt)

/-- Every meaning is the end of a cycle over its stage, with its format's operand count. -/
theorem exec_eq_finish (i : Instr) (s : State) : exec i s = finish i.operandCount s (execStage i s) := by
  cases i <;> rfl

/-! ## One inversion lemma per stage -/

variable {a b imm : Byte} {s t : State} {f : Flow}

theorem aluStage_ok {g : Byte → Byte → Byte} (h : aluStage g a b s = .ok (t, f)) :
    ∃ ra rb, regOfByte a = some ra ∧ regOfByte b = some rb ∧
      t = s.setReg ra (g (s.getReg ra) (s.getReg rb)) ∧ f = .sequential := by
  obtain ⟨ra, rb, ha, hb, h⟩ := withRegs_ok h
  simp only [Except.ok.injEq, Prod.mk.injEq] at h
  exact ⟨ra, rb, ha, hb, h.1.symm, h.2.symm⟩

theorem divideStage_ok {g : Byte → Byte → Byte} (h : divideStage g a b s = .ok (t, f)) :
    ∃ ra rb, regOfByte a = some ra ∧ regOfByte b = some rb ∧ s.getReg rb ≠ 0#8 ∧
      t = s.setReg ra (g (s.getReg ra) (s.getReg rb)) ∧ f = .sequential := by
  obtain ⟨ra, rb, ha, hb, h⟩ := withRegs_ok h
  split at h
  · simp at h
  · simp only [Except.ok.injEq, Prod.mk.injEq] at h
    exact ⟨ra, rb, ha, hb, ‹_›, h.1.symm, h.2.symm⟩

theorem compareStage_ok (h : compareStage a b s = .ok (t, f)) :
    ∃ ra rb, regOfByte a = some ra ∧ regOfByte b = some rb ∧
      t = s.setFlags (compareFlags (s.getReg ra) (s.getReg rb)) ∧ f = .sequential := by
  obtain ⟨ra, rb, ha, hb, h⟩ := withRegs_ok h
  simp only [Except.ok.injEq, Prod.mk.injEq] at h
  exact ⟨ra, rb, ha, hb, h.1.symm, h.2.symm⟩

theorem jumpStage_ok {taken : Bool} (h : jumpStage taken a s = .ok (t, f)) :
    ∃ ra, regOfByte a = some ra ∧ t = s ∧ f = if taken then .jump (s.getReg ra) else .sequential := by
  obtain ⟨ra, ha, h⟩ := withReg_ok h
  simp only [Except.ok.injEq, Prod.mk.injEq] at h
  exact ⟨ra, ha, h.1.symm, h.2.symm⟩

theorem pushStage_ok (h : pushStage a s = .ok (t, f)) :
    ∃ ra, regOfByte a = some ra ∧ s.getReg sp ≠ 0#8 ∧ f = .sequential ∧
      t = (s.setReg sp (pushSlot s)).memWrite (pushSlot s) ((s.setReg sp (pushSlot s)).getReg ra) := by
  obtain ⟨ra, ha, h⟩ := withReg_ok h
  rcases lowerSp_cases s with ⟨-, e⟩ | ⟨hne, e⟩
  · simp [e] at h
  · simp only [e, Except.ok.injEq, Prod.mk.injEq] at h
    exact ⟨ra, ha, hne, h.2.symm, h.1.symm⟩

theorem popStage_ok (h : popStage a s = .ok (t, f)) :
    ∃ ra, regOfByte a = some ra ∧ (s.getReg sp).toNat < 0xF4 ∧ f = .sequential ∧
      t = raiseSp (s.setReg ra (s.memRead (s.getReg sp))) := by
  obtain ⟨ra, ha, h⟩ := withReg_ok h
  rcases stackTop_cases s with ⟨-, e⟩ | ⟨hlt, e⟩
  · simp [e] at h
  · simp only [e, Except.ok.injEq, Prod.mk.injEq] at h
    exact ⟨ra, ha, hlt, h.2.symm, h.1.symm⟩

theorem callStage_ok (h : callStage a s = .ok (t, f)) :
    ∃ ra, regOfByte a = some ra ∧ s.pc.toNat + 2 ≤ 255 ∧ s.getReg sp ≠ 0#8 ∧ f = .jump (t.getReg ra) ∧
      t = (s.setReg sp (pushSlot s)).memWrite (pushSlot s) (BitVec.ofNat 8 (s.pc.toNat + 2)) := by
  obtain ⟨ra, ha, h⟩ := withReg_ok h
  split at h
  · simp at h
  · have hpc : s.pc.toNat + 2 ≤ 255 := by
      have : ¬ 256 ≤ s.pc.toNat + 2 := ‹_›
      omega
    rcases lowerSp_cases s with ⟨-, e⟩ | ⟨hne, e⟩
    · simp [e] at h
    · simp only [e, Except.ok.injEq, Prod.mk.injEq] at h
      obtain ⟨rfl, rfl⟩ := h
      exact ⟨ra, ha, hpc, hne, rfl, rfl⟩

theorem retStage_ok (h : retStage s = .ok (t, f)) :
    (s.getReg sp).toNat < 0xF4 ∧ t = raiseSp s ∧ f = .jump (s.memRead (s.getReg sp)) := by
  unfold retStage at h
  rcases stackTop_cases s with ⟨-, e⟩ | ⟨hlt, e⟩
  · simp [e] at h
  · simp only [e, Except.ok.injEq, Prod.mk.injEq] at h
    exact ⟨hlt, h.1.symm, h.2.symm⟩

theorem ldiStage_ok (h : ldiStage a imm s = .ok (t, f)) :
    ∃ ra, regOfByte a = some ra ∧ t = s.setReg ra imm ∧ f = .sequential := by
  obtain ⟨ra, ha, h⟩ := withReg_ok h
  simp only [Except.ok.injEq, Prod.mk.injEq] at h
  exact ⟨ra, ha, h.1.symm, h.2.symm⟩

theorem prnStage_ok (h : prnStage a s = .ok (t, f)) :
    ∃ ra, regOfByte a = some ra ∧ t = s.emit (s.getReg ra) ∧ f = .sequential := by
  obtain ⟨ra, ha, h⟩ := withReg_ok h
  simp only [Except.ok.injEq, Prod.mk.injEq] at h
  exact ⟨ra, ha, h.1.symm, h.2.symm⟩

/-- A jump's flow is sequential exactly when it is not taken. -/
theorem jumpFlow_eq_sequential (taken : Bool) (target : Byte) :
    (if taken = true then Flow.jump target else Flow.sequential) = .sequential ↔ taken = false := by
  cases taken <;> simp

/-- No execute stage touches PC or RS: both are the business of the end of the cycle (40_execution_cycle.md R75). -/
theorem execStage_pc_rs {i : Instr} (h : execStage i s = .ok (t, f)) : t.pc = s.pc ∧ t.rs = s.rs := by
  cases i <;> simp only [execStage] at h
  case add | sub | mul => obtain ⟨_, _, -, -, rfl, -⟩ := aluStage_ok h; exact ⟨rfl, rfl⟩
  case div | mod => obtain ⟨_, _, -, -, -, rfl, -⟩ := divideStage_ok h; exact ⟨rfl, rfl⟩
  case cmp => obtain ⟨_, _, -, -, rfl, -⟩ := compareStage_ok h; exact ⟨rfl, rfl⟩
  case push => obtain ⟨_, -, -, -, rfl⟩ := pushStage_ok h; exact ⟨rfl, rfl⟩
  case pop => obtain ⟨_, -, -, -, rfl⟩ := popStage_ok h; exact ⟨rfl, rfl⟩
  case call => obtain ⟨_, -, -, -, -, rfl⟩ := callStage_ok h; exact ⟨rfl, rfl⟩
  case ret => obtain ⟨-, rfl, -⟩ := retStage_ok h; exact ⟨rfl, rfl⟩
  case ldi => obtain ⟨_, -, rfl, -⟩ := ldiStage_ok h; exact ⟨rfl, rfl⟩
  case prn => obtain ⟨_, -, rfl, -⟩ := prnStage_ok h; exact ⟨rfl, rfl⟩
  case hlt => obtain ⟨rfl, -⟩ : s = t ∧ Flow.halt = f := by simpa using h
              exact ⟨rfl, rfl⟩
  all_goals
    obtain ⟨_, -, rfl, -⟩ := jumpStage_ok h
    exact ⟨rfl, rfl⟩

/-! ## The value laws of the ALU (41_alu.md R99) -/

theorem aluAdd_toNat (x y : Byte) : (aluAdd x y).toNat = (x.toNat + y.toNat) % 256 := by
  simp [aluAdd]

theorem aluMul_toNat (x y : Byte) : (aluMul x y).toNat = (x.toNat * y.toNat) % 256 := by
  simp [aluMul]

theorem aluSub_toNat (x y : Byte) : ((aluSub x y).toNat : Int) = ((x.toNat : Int) - y.toNat) % 256 := by
  rw [aluSub, BitVec.toNat_ofInt]
  have := Int.emod_nonneg ((x.toNat : Int) - y.toNat) (show (256 : Int) ≠ 0 by decide)
  exact Int.toNat_of_nonneg this

/-- A quotient of bytes is a byte. -/
theorem aluDiv_toNat (x y : Byte) : (aluDiv x y).toNat = x.toNat / y.toNat := by
  rw [aluDiv, BitVec.toNat_ofNat]
  exact Nat.mod_eq_of_lt (Nat.lt_of_le_of_lt (Nat.div_le_self _ _) x.isLt)

/-- A remainder of bytes is a byte. -/
theorem aluMod_toNat (x y : Byte) : (aluMod x y).toNat = x.toNat % y.toNat := by
  rw [aluMod, BitVec.toNat_ofNat]
  exact Nat.mod_eq_of_lt (Nat.lt_of_le_of_lt (Nat.mod_le _ _) x.isLt)

/-- A comparison leaves one of the four values of FL (10_state.md R15). -/
theorem compareFlags_legal (x y : Byte) : flLegal (compareFlags x y) = true := by
  unfold compareFlags
  split
  · rfl
  · split <;> rfl

end Sys2Proof.Machine
end

