-- ==== Sys2Proof/Laws/PerInstr.lean ====
section
/-! SUPPORT. One statement for all instructions, a lemma per constructor: the encoding of an instruction is
its opcode and as many operand bytes as its format has (30_encoding.md R50, R51). -/

namespace Sys2Proof.Laws.EncodedLength

/-- The encoding is one opcode byte and `operandCount` operand bytes, the register bytes first. -/
def Statement (i : Instr) : Prop :=
  (encode i).length = 1 + i.operandCount ∧ i.registerBytes = ((encode i).drop 1).take i.registerBytes.length

theorem add (a b : Byte) : Statement (.add a b) := ⟨rfl, rfl⟩
theorem sub (a b : Byte) : Statement (.sub a b) := ⟨rfl, rfl⟩
theorem mul (a b : Byte) : Statement (.mul a b) := ⟨rfl, rfl⟩
theorem div (a b : Byte) : Statement (.div a b) := ⟨rfl, rfl⟩
theorem mod (a b : Byte) : Statement (.mod a b) := ⟨rfl, rfl⟩
theorem cmp (a b : Byte) : Statement (.cmp a b) := ⟨rfl, rfl⟩
theorem jmp (a : Byte) : Statement (.jmp a) := ⟨rfl, rfl⟩
theorem jeq (a : Byte) : Statement (.jeq a) := ⟨rfl, rfl⟩
theorem jne (a : Byte) : Statement (.jne a) := ⟨rfl, rfl⟩
theorem jgt (a : Byte) : Statement (.jgt a) := ⟨rfl, rfl⟩
theorem jlt (a : Byte) : Statement (.jlt a) := ⟨rfl, rfl⟩
theorem jle (a : Byte) : Statement (.jle a) := ⟨rfl, rfl⟩
theorem jge (a : Byte) : Statement (.jge a) := ⟨rfl, rfl⟩
theorem call (a : Byte) : Statement (.call a) := ⟨rfl, rfl⟩
theorem ret : Statement .ret := ⟨rfl, rfl⟩
theorem push (a : Byte) : Statement (.push a) := ⟨rfl, rfl⟩
theorem pop (a : Byte) : Statement (.pop a) := ⟨rfl, rfl⟩
theorem ldi (a imm : Byte) : Statement (.ldi a imm) := ⟨rfl, rfl⟩
theorem prn (a : Byte) : Statement (.prn a) := ⟨rfl, rfl⟩
theorem hlt : Statement .hlt := ⟨rfl, rfl⟩

end Sys2Proof.Laws.EncodedLength
end

