-- ==== Sys2Proof/Laws/Step.lean ====
section
/-! SUPPORT. What decoding, the fetch and a step can do, said once (40_execution_cycle.md R71 to R73, R80). -/

namespace Sys2Proof

/-- A decoded sequence starts with its instruction's opcode, whose entry in the map builds the instruction. -/
theorem decode_ok_head {bs rest : List Byte} {i : Instr} (h : decode bs = .ok (i, rest)) :
    ∃ op tail form, bs = op :: tail ∧ lookupOpcode op = some form := by
  match bs, h with
  | [], h => simp [decode] at h
  | op :: tail, h =>
    cases e : lookupOpcode op with
    | none => simp [decode, e] at h
    | some form => exact ⟨op, tail, form, rfl, e⟩

end Sys2Proof

namespace Sys2Proof.Machine

/-! ## The fetch -/

/-- An exact address below 256 reads its cell. -/
theorem memReadExact_inside (s : State) {a : Nat} (h : a < 256) : s.memReadExact a = some (s.memRead (BitVec.ofNat 8 a)) :=
  if_pos h

/-- No cell exists from address 256 on. -/
theorem memReadExact_past (s : State) {a : Nat} (h : 256 ≤ a) : s.memReadExact a = none :=
  if_neg (show ¬ a < 256 by omega)

/-- The fetch sees the three cells from PC, each only where it exists. -/
theorem fetchBytes_eq (s : State) :
    s.fetchBytes = (s.memReadExact s.pc.toNat).toList ++ (s.memReadExact (s.pc.toNat + 1)).toList ++
      (s.memReadExact (s.pc.toNat + 2)).toList := by
  have hr : List.range Config.maxInstrBytes = [0, 1, 2] := by decide
  unfold State.fetchBytes
  rw [hr]
  cases h0 : s.memReadExact s.pc.toNat <;> cases h1 : s.memReadExact (s.pc.toNat + 1) <;>
    cases h2 : s.memReadExact (s.pc.toNat + 2) <;> simp [h0, h1, h2]

/-- The first fetched byte is the opcode byte at PC. -/
theorem fetchBytes_head (s : State) : ∃ tail, s.fetchBytes = s.memRead s.pc :: tail := by
  refine ⟨(s.memReadExact (s.pc.toNat + 1)).toList ++ (s.memReadExact (s.pc.toNat + 2)).toList, ?_⟩
  have h : s.memReadExact s.pc.toNat = some (s.memRead s.pc) := by
    simpa using memReadExact_inside s (a := s.pc.toNat) s.pc.isLt
  rw [fetchBytes_eq, h]
  rfl

/-- The fetch reads nothing but PC and memory. -/
theorem fetchBytes_congr {s t : State} (hp : s.pc = t.pc) (hm : s.mem = t.mem) : s.fetchBytes = t.fetchBytes := by
  simp only [State.fetchBytes, State.memReadExact, State.memRead, hp, hm]

/-! ## A step -/

theorem step_of_decode {s : State} {i : Instr} {rest : List Byte} (hs : s.rs = .running)
    (h : decode s.fetchBytes = .ok (i, rest)) : step s = exec i s := by
  simp [step, hs, h]

theorem step_of_decodeError {s : State} {e : DecodeError} (hs : s.rs = .running)
    (h : decode s.fetchBytes = .error e) : step s = .next (s.takeFault (faultOfDecodeError e)) := by
  simp [step, hs, h]

theorem step_of_terminal {s : State} (hs : s.rs ≠ .running) : step s = .next s := by
  unfold step
  split
  · exact absurd ‹_› hs
  · rfl
  · rfl

/-- Everything a step that answers a state can have done: nothing in a terminal state; the fault of bytes that are no
instruction; the fault of an execute stage; or a completed execute stage and the PC update. -/
theorem step_next {s u : State} (h : step s = .next u) :
    (s.rs ≠ .running ∧ u = s) ∨
    (s.rs = .running ∧ ∃ e, decode s.fetchBytes = .error e ∧ u = s.takeFault (faultOfDecodeError e)) ∨
    (s.rs = .running ∧ ∃ i rest, decode s.fetchBytes = .ok (i, rest) ∧
      ((∃ r, execStage i s = .error r ∧ u = s.takeFault r) ∨
        ∃ t f, execStage i s = .ok (t, f) ∧ u = t.follow i.operandCount f)) := by
  by_cases hs : s.rs = .running
  · cases hd : decode s.fetchBytes with
    | error e =>
      rw [step_of_decodeError hs hd] at h
      exact .inr (.inl ⟨hs, e, rfl, by simpa using h.symm⟩)
    | ok p =>
      obtain ⟨i, rest⟩ := p
      rw [step_of_decode hs hd, exec_eq_finish] at h
      exact .inr (.inr ⟨hs, i, rest, rfl, finish_next h⟩)
  · rw [step_of_terminal hs] at h
    exact .inl ⟨hs, by simpa using h.symm⟩

end Sys2Proof.Machine
end

