-- ==== Sys2Proof/Tests/Slice0.lean ====
section
/-! SUPPORT. The model's own tests. Expected results are those of spec/95_test_vectors.md (vectors B1 to B6) or
of the encodings of spec/30_encoding.md R56; each witness meets all hypotheses of the obligation it names. -/

open Sys2Proof Sys2Proof.Machine Sys2Proof.Claims

namespace Sys2Proof.Tests

/-- A running state with x[0], x[1], x[2], SP, pc, FL and memory as given and nothing emitted. -/
def st (x0 x1 x2 spv pc fl : Byte) (mem : Memory) : State :=
  { regs := #v[x0, x1, x2, 0, 0, 0, 0, spv], pc, fl, rs := .running, mem, out := [] }

/-- What a test looks at after one step: x[0], x[1], SP, pc, FL, RS. -/
def seen (o : Host.Outcome State Fault Refusal) : Option (Byte × Byte × Byte × Byte × Byte × RunState) :=
  (nextState? o).map fun t => (t.getReg 0, t.getReg 1, t.getReg 7, t.pc, t.fl, t.rs)

/-- The state after an instruction, for witnesses. -/
def after (i : Instr) (s : State) : State := (nextState? (exec i s)).getD s

/-! ## WellFormed refuses each ill-formed operand -/

theorem wf_refuses_first_operand_F1 : (Instr.push 8).wellFormed = false := by decide
theorem wf_refuses_first_operand_F2RR : (Instr.add 8 0).wellFormed = false := by decide
theorem wf_refuses_second_operand_F2RR : (Instr.add 0 255).wellFormed = false := by decide
theorem wf_refuses_first_operand_F2RI : (Instr.ldi 8 1).wellFormed = false := by decide
theorem wf_accepts_any_immediate : (Instr.ldi 7 255).wellFormed = true := by decide

/-! ## Every constructor's word, bit by bit from 30_encoding.md R56 and R51 -/

theorem decode_HLT : decode [0b00000001] = .ok (.hlt, []) := by decide
theorem decode_RET : decode [0b00010001] = .ok (.ret, []) := by decide
theorem decode_PUSH : decode [0b01000101, 0b00000110] = .ok (.push 6, []) := by decide
theorem decode_POP : decode [0b01000110, 0b00000101] = .ok (.pop 5, []) := by decide
theorem decode_PRN : decode [0b01000111, 0b00000100] = .ok (.prn 4, []) := by decide
theorem decode_CALL : decode [0b01010000, 0b00000011] = .ok (.call 3, []) := by decide
theorem decode_JMP : decode [0b01010100, 0b00000010] = .ok (.jmp 2, []) := by decide
theorem decode_JEQ : decode [0b01010101, 0b00000001] = .ok (.jeq 1, []) := by decide
theorem decode_JNE : decode [0b01010110, 0b00000111] = .ok (.jne 7, []) := by decide
theorem decode_JGT : decode [0b01010111, 0b00000110] = .ok (.jgt 6, []) := by decide
theorem decode_JLT : decode [0b01011000, 0b00000101] = .ok (.jlt 5, []) := by decide
theorem decode_JLE : decode [0b01011001, 0b00000100] = .ok (.jle 4, []) := by decide
theorem decode_JGE : decode [0b01011010, 0b00000011] = .ok (.jge 3, []) := by decide
theorem decode_LDI : decode [0b10000010, 0b00000011, 0b11111111] = .ok (.ldi 3 255, []) := by decide
theorem decode_ADD : decode [0b10100000, 0b00000001, 0b00000010] = .ok (.add 1 2, []) := by decide
theorem decode_SUB : decode [0b10100001, 0b00000010, 0b00000001] = .ok (.sub 2 1, []) := by decide
theorem decode_MUL : decode [0b10100010, 0b00000011, 0b00000100] = .ok (.mul 3 4, []) := by decide
theorem decode_DIV : decode [0b10100011, 0b00000100, 0b00000011] = .ok (.div 4 3, []) := by decide
theorem decode_MOD : decode [0b10100100, 0b00000101, 0b00000110] = .ok (.mod 5 6, []) := by decide
theorem decode_CMP : decode [0b10100111, 0b00000110, 0b00000101] = .ok (.cmp 6 5, []) := by decide

/-- B1.4 to B1.8: zero, a count field of 3, and the bytes of instructions other LS-8 machines have. -/
theorem decode_rejects_unassigned :
    [0x00#8, 0xC0#8, 0xA8#8, 0x83#8, 0x84#8, 0x65#8, 0x48#8, 0xA5#8, 0xA6#8, 0xC7#8].all
      (fun op => decode [op, 0, 1] == .error .unknownOpcode) = true := by decide

theorem decode_rejects_missing_operand : decode [0xA0, 0] = .error .missingByte := by decide

/-- The host's word for `82 00 08`: bits 7..0 are the opcode byte. -/
theorem decodeTableWord_LDI : decodeTableWord 24 0x080082 = some (.ldi 0 8) := by decide

/-! ## One step on the spec's vectors -/

/-- B2.2: 255 + 1 wraps. -/
theorem test_ADD_wraps : seen (exec (.add 0 1) (st 255 1 0 0xF4 0 0 [])) = some (0, 1, 0xF4, 3, 0, .running) := by decide
/-- B2.5: the same register on both sides. -/
theorem test_ADD_same_register : seen (exec (.add 0 0) (st 0x90 0 0 0xF4 0 0 [])) = some (0x20, 0, 0xF4, 3, 0, .running) := by
  decide
/-- B2.7: 3 - 5 wraps, in the order of the operands. -/
theorem test_SUB_wraps : seen (exec (.sub 0 1) (st 3 5 0 0xF4 0 0 [])) = some (254, 5, 0xF4, 3, 0, .running) := by decide
/-- B2.12. -/
theorem test_MUL_truncates : seen (exec (.mul 0 1) (st 200 2 0 0xF4 0 0 [])) = some (144, 2, 0xF4, 3, 0, .running) := by decide
/-- B2.16. -/
theorem test_DIV_drops_fraction : seen (exec (.div 0 1) (st 27 4 0 0xF4 0 0 [])) = some (6, 4, 0xF4, 3, 0, .running) := by decide
/-- B2.22. -/
theorem test_DIV_by_zero : seen (exec (.div 0 1) (st 9 0 0 0xF4 0 0 [])) = some (9, 0, 0xF4, 0, 0, .faulted .divisionByZero) := by
  decide
/-- B2.28. -/
theorem test_MOD : seen (exec (.mod 0 1) (st 255 16 0 0xF4 0 0 [])) = some (15, 16, 0xF4, 3, 0, .running) := by decide
/-- B2.34: unsigned, 255 is not -1. -/
theorem test_CMP_unsigned : seen (exec (.cmp 0 1) (st 0 255 0 0xF4 0 0 [])) = some (0, 255, 0xF4, 3, 4, .running) := by decide
/-- B2.37: the old L is not kept. -/
theorem test_CMP_overwrites : seen (exec (.cmp 0 1) (st 5 3 0 0xF4 0 4 [])) = some (5, 3, 0xF4, 3, 2, .running) := by decide

/-- The pc a jump by R2 = 0x30 at 0x10 leaves, for FL = E, G, L, none. -/
def jumpRow (i : Instr) : List (Option Byte) :=
  [1#8, 2#8, 4#8, 0#8].map fun fl => (nextState? (exec i (st 0 0 0x30 0xF4 0x10 fl []))).map (·.pc)

/-- B3.1 to B3.7. -/
theorem test_JMP_row : jumpRow (.jmp 2) = [some 0x30, some 0x30, some 0x30, some 0x30] := by decide
theorem test_JEQ_row : jumpRow (.jeq 2) = [some 0x30, some 0x12, some 0x12, some 0x12] := by decide
theorem test_JNE_row : jumpRow (.jne 2) = [some 0x12, some 0x30, some 0x30, some 0x30] := by decide
theorem test_JGT_row : jumpRow (.jgt 2) = [some 0x12, some 0x30, some 0x12, some 0x12] := by decide
theorem test_JLT_row : jumpRow (.jlt 2) = [some 0x12, some 0x12, some 0x30, some 0x12] := by decide
theorem test_JLE_row : jumpRow (.jle 2) = [some 0x30, some 0x12, some 0x30, some 0x12] := by decide
theorem test_JGE_row : jumpRow (.jge 2) = [some 0x30, some 0x30, some 0x12, some 0x12] := by decide

/-- B3.8, with the stored return address. -/
theorem test_CALL : (nextState? (exec (.call 1) (st 0 0x0C 0 0xF4 6 0 []))).map (fun t => (t.pc, t.getReg 7, t.mem)) =
    some (0x0C, 0xF3, [(0xF3, 0x08)]) := by decide
/-- B3.15: the target is SP after the decrement. -/
theorem test_CALL_R7 : (nextState? (exec (.call 7) (st 0 0 0 0xF4 0 0 []))).map (fun t => (t.pc, t.getReg 7, t.mem)) =
    some (0xF3, 0xF3, [(0xF3, 0x02)]) := by decide
/-- B3.9. -/
theorem test_RET : seen (exec .ret (st 0 0 0 0xF3 0x16 0 [(0xF3, 0x08)])) = some (0, 0, 0xF4, 8, 0, .running) := by decide
/-- B3.10. -/
theorem test_RET_underflow : seen (exec .ret State.reset) = some (0, 0, 0xF4, 0, 0, .faulted .stackUnderflow) := by decide
/-- B4.6: the byte at address 0 is overwritten. -/
theorem test_PUSH_to_zero : (nextState? (exec (.push 0) (st 0x99 0 0 1 0x20 0 [(0, 0x45)]))).map (fun t => (t.getReg 7, t.mem)) =
    some (0, [(0, 0x99)]) := by decide
/-- B4.7: PUSH R7 stores the lowered SP. -/
theorem test_PUSH_R7 : (nextState? (exec (.push 7) State.reset)).map (fun t => (t.getReg 7, t.mem)) =
    some (0xF3, [(0xF3, 0xF3)]) := by decide
/-- B4.2. -/
theorem test_POP : seen (exec (.pop 1) (st 0 0 0 0xF3 0 0 [(0xF3, 0x2A)])) = some (0, 0x2A, 0xF4, 2, 0, .running) := by decide
/-- B4.8: POP R7 leaves one more than the byte. -/
theorem test_POP_R7 : seen (exec (.pop 7) (st 0 0 0 0xF3 0 0 [(0xF3, 0x09)])) = some (0, 0, 0x0A, 2, 0, .running) := by decide
/-- B5.3. -/
theorem test_LDI_R7 : seen (exec (.ldi 7 128) State.reset) = some (0, 0, 0x80, 3, 0, .running) := by decide
/-- B5.6, the second value after the first. -/
theorem test_PRN_appends : (nextState? (exec (.prn 1) { st 1 2 0 0xF4 2 0 [] with out := [1] })).map (·.out) = some [1, 2] := by
  decide
/-- B1.17: HLT in the last byte, run by a step. -/
theorem test_HLT_at_255 : seen (step (st 0 0 0 0xF4 0xFF 0 [(0xFF, 0x01)])) = some (0, 0, 0xF4, 0xFF, 0, .halted) := by decide
/-- B1.16: the write is committed, then the advance faults. -/
theorem test_advance_past_end : seen (step (st 0 0 0 0xF4 0xFD 0 [(0xFD, 0x82), (0xFE, 1), (0xFF, 9)])) =
    some (0, 9, 0xF4, 0xFD, 0, .faulted .addressOutOfRange) := by decide
/-- B1.14: the operand fetch faults, nothing written. -/
theorem test_fetch_past_end : seen (step (st 5 6 0 0xF4 0xFE 0 [(0xFE, 0xA0)])) =
    some (5, 6, 0xF4, 0xFE, 0, .faulted .addressOutOfRange) := by decide
/-- B1.20: the register check comes before the divisor check. -/
theorem test_register_check_first : seen (step (st 5 0 0 0xF4 0 0 [(0, 0xA3), (1, 8)])) =
    some (5, 0, 0xF4, 0, 0, .faulted .registerIndexOutOfRange) := by decide
/-- B6.2. -/
theorem test_empty_memory_faults : seen (step State.reset) = some (0, 0, 0xF4, 0, 0, .faulted .unknownOpcode) := by decide
/-- A word placed for the next fetch is the instruction that runs: `82 00 08` from reset. -/
theorem test_withFetchWord : seen (step (State.reset.withFetchWord 24 0x080082)) = some (8, 0, 0xF4, 3, 0, .running) := by decide
/-- From a terminal state at the last address the same word runs too. -/
theorem test_withFetchWord_from_halted :
    seen (step (({ State.reset with pc := 0xFF, rs := .halted } : State).withFetchWord 24 0x080082)) =
      some (8, 0, 0xF4, 3, 0, .running) := by decide
/-- The loader's bytes reach memory in order (R142), and zero bytes keep the form canonical. -/
theorem test_load : (nextState? (State.launch [0x82, 0x00, 0x08])).map (·.mem) = some [(0, 0x82), (2, 0x08)] := by decide

/-! ## The hypotheses of the obligations are met -/

theorem witness_StepRunsDecodedInstruction :
    let s := st 0 0 0 0xF4 0xFD 0 [(0xFD, 0x82), (0xFE, 1), (0xFF, 9)]
    s.rs = .running ∧ decode s.fetchBytes = .ok (.ldi 1 9, []) ∧ (Instr.ldi 1 9).wellFormed = true := by decide

theorem witness_StepRunsInstructionInMemory :
    let s := st 0 0 0 0xF4 0xFE 0 [(0xFE, 0x47), (0xFF, 7)]
    s.rs = .running ∧ s.pc.toNat + (Instr.prn 7).operandCount ≤ 255 ∧
      ∀ k b, (encode (.prn 7))[k]? = some b → s.memRead (BitVec.ofNat 8 (s.pc.toNat + k)) = b := by
  refine ⟨rfl, by decide, fun k b h => ?_⟩
  match k, h with
  | 0, h => exact Option.some.inj h
  | 1, h => exact Option.some.inj h
  | k + 2, h => simp [encode] at h

theorem witness_UnassignedOpcodeFaults :
    let s := st 0 0 0 0xF4 0xFF 0 [(0xFF, 0xC7)]
    s.rs = .running ∧ s.memRead s.pc ∉ assignedOpcodes := by decide

/-- Both addresses at which an operand fetch can pass the end, and the last at which it does not. -/
theorem witness_OperandFetchPastEndFaults :
    let past (s : State) := s.rs = .running ∧ s.memRead s.pc ∈ assignedOpcodes ∧
      255 < s.pc.toNat + ((s.memRead s.pc).extractLsb 7 6).toNat
    past (st 0 0 0 0xF4 0xFF 0 [(0xFF, 0x47)]) ∧ past (st 0 0 0 0xF4 0xFE 0 [(0xFE, 0xA0)]) ∧
      ¬ past (st 0 0 0 0xF4 0xFE 0 [(0xFE, 0x47)]) := by decide

theorem witness_RegisterByteOutOfRangeFaults :
    (∃ b ∈ (Instr.jeq 8).registerBytes, 8 ≤ b.toNat) ∧ (∃ b ∈ (Instr.div 7 8).registerBytes, 8 ≤ b.toNat) ∧
      ¬ ∃ b ∈ (Instr.ldi 7 8).registerBytes, 8 ≤ b.toNat := by decide

/-- A register write, a store and an untaken jump, each in the last bytes of memory. -/
theorem witness_AdvancePastEndKeepsWrites :
    let meets (i : Instr) (s : State) (p : Byte) := continues s.fl i = true ∧ s.rs = .running ∧
      255 < s.pc.toNat + i.operandCount + 1 ∧ p.toNat + i.operandCount + 1 ≤ 255 ∧
      ∃ u, exec i { s with pc := p } = .next u ∧ u.rs = .running
    meets (.ldi 1 9) (st 0 0 0 0xF4 0xFD 0 []) 0xFC ∧ meets (.push 0) (st 7 0 0 0xF4 0xFE 0 []) 0xFD ∧
      meets (.jeq 0) (st 7 0 0 0xF4 0xFE 4 []) 0 :=
  ⟨⟨rfl, rfl, by decide, by decide, _, rfl, rfl⟩, ⟨rfl, rfl, by decide, by decide, _, rfl, rfl⟩,
    ⟨rfl, rfl, by decide, by decide, _, rfl, rfl⟩⟩

/-- The two clauses on PC of the instructions of three bytes and of two, at the addresses where they meet. -/
theorem witness_AfterContinue_clauses :
    (st 0 0 0 0xF4 252 0 []).pc.toNat + 3 ≤ 255 ∧ 255 < (st 0 0 0 0xF4 253 0 []).pc.toNat + 3 ∧
    (st 0 0 0 0xF4 253 0 []).pc.toNat + 2 ≤ 255 ∧ 255 < (st 0 0 0 0xF4 254 0 []).pc.toNat + 2 := by decide

theorem witness_DivModDivideOrFault_and_DivAndModAgree :
    (st 27 1 0 0xF4 0 0 []).getReg 1 ≠ 0 ∧ (st 27 0 0 0xF4 0 0 []).getReg 1 = 0 := by decide

theorem witness_CmpOverwritesFlags_clauses :
    let v (s : State) (r : Reg) := (s.getReg r).toNat
    v (st 255 255 0 0 0 0 []) 0 = v (st 255 255 0 0 0 0 []) 1 ∧ v (st 255 0 0 0 0 0 []) 1 < v (st 255 0 0 0 0 0 []) 0 ∧
      v (st 0 255 0 0 0 0 []) 0 < v (st 0 255 0 0 0 0 []) 1 := by decide

theorem witness_ConditionalJumpsFollowFlags_clauses :
    (st 0 0 0 0 0 1 []).fl.getLsbD 0 = true ∧ (st 0 0 0 0 0 2 []).fl.getLsbD 1 = true ∧
      (st 0 0 0 0 0 4 []).fl.getLsbD 2 = true ∧ (st 0 0 0 0 0 0 []).fl.getLsbD 0 = false ∧
      (st 0 0 0 0 0 0 []).fl.getLsbD 1 = false ∧ (st 0 0 0 0 0 0 []).fl.getLsbD 2 = false := by decide

theorem witness_CompareThenJumpBranchesOnOrder : (st 3 5 0x11 0xF4 250 0 []).pc.toNat + 5 ≤ 255 := by decide

/-- The three clauses of CALL where they meet: pc 253 and 254, SP 0 and 1. -/
theorem witness_CallPushesReturnAddressAndJumps_clauses :
    (255 < (st 0 0 0 1 254 0 []).pc.toNat + 2) ∧
    ((st 0 0 0 0 253 0 []).pc.toNat + 2 ≤ 255 ∧ (st 0 0 0 0 253 0 []).getReg 7 = 0) ∧
    ((st 0 0 0 1 253 0 []).pc.toNat + 2 ≤ 255 ∧ (st 0 0 0 1 253 0 []).getReg 7 ≠ 0 ∧ (st 0 0 0 1 253 0 []).mem.wf) := by decide

/-- The two clauses of RET and POP where they meet, and the two registers of POP. -/
theorem witness_RetPopsIntoPc_and_PopLoadsThenRaisesSp_clauses :
    0xF4 ≤ ((st 0 0 0 0xF4 0 0 []).getReg 7).toNat ∧ ((st 0 0 0 0xF3 0 0 []).getReg 7).toNat < 0xF4 ∧
      (6 : Reg) ≠ 7 := by decide

/-- A routine that does nothing between CALL and RET, from SP at its base and from SP 1. -/
theorem witness_CallThenRetReturns :
    let meets (s : State) := s.mem.wf ∧ s.pc.toNat + 2 ≤ 255 ∧ 0 < (s.getReg 7).toNat ∧ (s.getReg 7).toNat ≤ 0xF4 ∧
      ∃ t u : State, exec (.call (byteOfReg 1)) s = .next t ∧ u.getReg 7 = t.getReg 7 ∧
        u.memRead (pushSlot s) = t.memRead (pushSlot s)
    meets (st 0 0x20 0 0xF4 253 0 []) ∧ meets (st 0 0x20 0 1 0 0 [(0, 0x50)]) :=
  ⟨⟨by decide, by decide, by decide, by decide, _, after (.call 1) (st 0 0x20 0 0xF4 253 0 []), rfl, rfl, rfl⟩,
    ⟨by decide, by decide, by decide, by decide, _, after (.call 1) (st 0 0x20 0 1 0 0 [(0, 0x50)]), rfl, rfl, rfl⟩⟩

theorem witness_PushLowersSpThenStores_clauses :
    (st 0 0 0 0 0 0 []).getReg 7 = 0 ∧ (st 0 0 0 1 0 0 []).getReg 7 ≠ 0 ∧ (st 0 0 0 1 0 0 []).mem.wf := by decide

theorem witness_PushThenPopMovesValue :
    let meets (s : State) := s.mem.wf ∧ (0 : Reg) ≠ 7 ∧ (1 : Reg) ≠ 7 ∧ s.pc.toNat + 4 ≤ 255 ∧
      0 < (s.getReg 7).toNat ∧ (s.getReg 7).toNat ≤ 0xF4
    meets (st 0x2A 0 0 0xF4 251 0 []) ∧ meets (st 0x2A 0 0 1 0 0 []) := by decide

/-- A PUSH at 0x10 with SP 0x13 stores to 0x12, the next instruction's address. -/
theorem witness_PushedByteIsFetchedNext :
    let s := st 0x01 0 0 0x13 0x10 0 []
    s.mem.wf ∧ s.getReg 7 ≠ 0 ∧ (0 : Reg) ≠ 7 ∧
      ∃ t, exec (.push (byteOfReg 0)) s = .next t ∧ t.pc = pushSlot s :=
  ⟨by decide, by decide, by decide, _, rfl, rfl⟩

theorem witness_TerminalStatesAreFrozen :
    ({ State.reset with rs := .halted } : State).rs ≠ .running ∧
      ({ State.reset with rs := .faulted .stackOverflow } : State).rs ≠ .running := by decide

/-- A fault before the execute stage, and the fault of the advance; they are also runs for FirstFaultInStageOrder. -/
theorem witness_FaultsArePrecise_and_FirstFaultInStageOrder :
    let meets (s : State) (r : FaultReason) := s.rs = .running ∧ ∃ t, step s = .next t ∧ t.rs = .faulted r
    meets State.reset .unknownOpcode ∧
      meets (st 0 0 0 0xF4 0xFD 0 [(0xFD, 0x82), (0xFE, 1), (0xFF, 9)]) .addressOutOfRange :=
  ⟨⟨rfl, _, rfl, rfl⟩, ⟨rfl, _, rfl, rfl⟩⟩

theorem witness_OnlyHltReachesHalted :
    let s := st 0 0 0 0xF4 0xFF 0 [(0xFF, 0x01)]
    s.rs = .running ∧ ∃ t, step s = .next t ∧ t.rs = .halted := ⟨rfl, _, rfl, rfl⟩

theorem witness_OnlyCmpWritesFlags : ∃ t, step (st 0 1 0 0xF4 0 0 [(0, 0xA7), (2, 1)]) = .next t ∧ t.fl ≠ 0 :=
  ⟨_, rfl, by decide⟩

theorem witness_OnlyConditionalJumpsReadFlags :
    readsFlags (.cmp 0 1) = false ∧ ∃ t, exec (.cmp 0 1) (st 0 1 0 0xF4 0 0 []) = .next t := ⟨rfl, _, rfl⟩

theorem witness_OnlyPushAndCallWriteMemory :
    let s := st 9 0 0 0xF4 0 0 [(0, 0x45)]
    ∃ t, step s = .next t ∧ t.memRead 0xF3 ≠ s.memRead 0xF3 := ⟨_, rfl, by decide⟩

theorem witness_RegistersChangeAsTabled : ∃ t, exec (.pop 1) (st 0 0 0 0xF3 0 0 [(0xF3, 7)]) = .next t := ⟨_, rfl⟩

theorem witness_OnlyPrnProducesOutput_and_OutputHistoryIsNeverRead :
    ∃ t, step (st 9 0 0 0xF4 0 0 [(0, 0x47)]) = .next t ∧ t.out = [9] := ⟨_, rfl, rfl⟩

theorem witness_StepKeepsInvariant :
    let s := st 9 0 0 0xF4 0 1 [(0, 0x45)]
    s.Inv ∧ ∃ t, step s = .next t := ⟨by decide, _, rfl⟩

theorem witness_LaunchState_and_LoaderRefusesLongImage :
    (List.replicate 256 0x01#8).length ≤ 256 ∧ 256 < (List.replicate 257 0x01#8).length := by
  rw [List.length_replicate, List.length_replicate]; omega

theorem witness_ResetAloneLeavesTerminalStates :
    let h : HostSession := { core := { State.reset with rs := .halted }, run := true, phase := .started }
    HostEvent.cycle ≠ .reset ∧ h.core.rs ≠ .running ∧ ∃ h', h.react .cycle = .next h' :=
  ⟨by decide, by decide, _, rfl⟩

theorem witness_RunEnableGatesCycles_clauses :
    HostSession.afterReset.run = false ∧
      ({ HostSession.afterReset with run := true } : HostSession).run = true ∧
      ∃ s, step ({ HostSession.afterReset with run := true } : HostSession).core = .next s := ⟨rfl, rfl, _, rfl⟩

theorem witness_StatusTellsHowARunEnded_clauses :
    [RunState.running, .halted, .faulted .unknownOpcode, .faulted .divisionByZero, .faulted .addressOutOfRange,
      .faulted .registerIndexOutOfRange, .faulted .stackOverflow, .faulted .stackUnderflow].all
      (fun rs => ({ State.reset with rs := rs } : State).rs == rs) = true := by decide

end Sys2Proof.Tests
end

section
/-! What a completed execute stage leaves and which bytes it came from, said once: the case analysis behind the
invariant and the "only this instruction changes that" statements (10_state.md R13 to R18). -/

open Sys2Proof.Claims

namespace Sys2Proof

/-! ## The opcode byte of a decoded instruction (30_encoding.md R51, R56) -/

/-- A format turns operand bytes into instructions whose encoding is the opcode and those bytes. -/
def Format.EncodesAs (op : Byte) : Format → Prop
  | .f0 i => encode i = [op]
  | .f1 mk => ∀ a, encode (mk a) = [op, a]
  | .f2 mk => ∀ a b, encode (mk a b) = [op, a, b]

/-- Each row of the opcode map builds the instructions that `encode` gives its opcode. -/
theorem opcodeMap_encodesAs : ∀ row ∈ opcodeMap, row.2.EncodesAs row.1 := by
  simp [opcodeMap, Format.EncodesAs, encode]

theorem lookupOpcode_encodesAs {op : Byte} {form : Format} (h : lookupOpcode op = some form) :
    form.EncodesAs op := by
  obtain ⟨⟨op', form'⟩, hfind, hform⟩ := Option.map_eq_some_iff.1 h
  have hop : op' = op := by simpa using List.find?_some hfind
  have hrow := opcodeMap_encodesAs _ (List.mem_of_find?_eq_some hfind)
  rwa [hform, hop] at hrow

/-- What decodes is an encoding followed by the bytes left over. -/
theorem eq_encode_append_of_decode {bs rest : List Byte} {i : Instr} (h : decode bs = .ok (i, rest)) :
    bs = encode i ++ rest := by
  obtain ⟨op, tail, form, rfl, hform⟩ := decode_ok_head h
  have henc := lookupOpcode_encodesAs hform
  cases form with
  | f0 j =>
    obtain ⟨rfl, rfl⟩ : j = i ∧ tail = rest := by simpa [decode, hform] using h
    rw [show encode j = [op] from henc]; rfl
  | f1 mk =>
    match tail, h with
    | [], h => simp [decode, hform] at h
    | a :: tail, h =>
      obtain ⟨rfl, rfl⟩ : mk a = i ∧ tail = rest := by simpa [decode, hform] using h
      rw [show encode (mk a) = [op, a] from henc a]; rfl
  | f2 mk =>
    match tail, h with
    | [], h | [_], h => simp [decode, hform] at h
    | a :: b :: tail, h =>
      obtain ⟨rfl, rfl⟩ : mk a b = i ∧ tail = rest := by simpa [decode, hform] using h
      rw [show encode (mk a b) = [op, a, b] from henc a b]; rfl

end Sys2Proof

namespace Sys2Proof.Machine

/-- The byte at PC is the opcode of the instruction a fetch decodes to. -/
theorem memRead_pc_of_decode {s : State} {i : Instr} {rest : List Byte} (h : decode s.fetchBytes = .ok (i, rest)) :
    (encode i).head? = some (s.memRead s.pc) := by
  obtain ⟨tail, htail⟩ := fetchBytes_head s
  have henc := eq_encode_append_of_decode h
  have hhead := congrArg List.head? (htail.symm.trans henc)
  cases i <;> exact hhead.symm

@[simp] theorem follow_memRead (s : State) (c : Nat) (f : Flow) (a : Byte) :
    (s.follow c f).memRead a = s.memRead a := by simp [State.memRead]

/-! ## The effect of a completed execute stage -/

/-- The push that PUSH and CALL share: SP lowered, and a byte stored at the slot it then points to. -/
def State.pushByte (s : State) (v : Byte) : State := (s.setReg sp (pushSlot s)).memWrite (pushSlot s) v

/-- All that a completed execute stage can have done: the state and the flow it leaves. -/
inductive StageEffect (s : State) : Instr → State → Flow → Prop
  | setReg {i r} (v : Byte) (hr : r ∈ writtenRegisters i) : StageEffect s i (s.setReg r v) .sequential
  | compare {a b} (x y : Byte) : StageEffect s (.cmp a b) (s.setFlags (compareFlags x y)) .sequential
  | branch {i f} (hf : f ≠ .halt) : StageEffect s i s f
  | push {a} (v : Byte) : StageEffect s (.push a) (s.pushByte v) .sequential
  | call {a} (v target : Byte) : StageEffect s (.call a) (s.pushByte v) (.jump target)
  | pop {a ra} (ha : regOfByte a = some ra) (v : Byte) : StageEffect s (.pop a) (raiseSp (s.setReg ra v)) .sequential
  | ret (target : Byte) : StageEffect s .ret (raiseSp s) (.jump target)
  | emit {a ra} (ha : regOfByte a = some ra) : StageEffect s (.prn a) (s.emit (s.getReg ra)) .sequential
  | halt : StageEffect s .hlt s .halt

theorem stageEffect_of_jumpStage {i : Instr} {taken : Bool} {a : Byte} {s t : State} {f : Flow}
    (h : jumpStage taken a s = .ok (t, f)) : StageEffect s i t f := by
  obtain ⟨ra, -, rfl, rfl⟩ := jumpStage_ok h
  exact .branch (by cases taken <;> simp)

/-- Every completed execute stage has one of these effects. -/
theorem stageEffect_of_execStage {i : Instr} {s t : State} {f : Flow} (h : execStage i s = .ok (t, f)) :
    StageEffect s i t f := by
  cases i <;> simp only [execStage] at h
  case add | sub | mul =>
    obtain ⟨ra, _, ha, -, rfl, rfl⟩ := aluStage_ok h
    exact .setReg _ (by simp [writtenRegisters, ha])
  case div | mod =>
    obtain ⟨ra, _, ha, -, -, rfl, rfl⟩ := divideStage_ok h
    exact .setReg _ (by simp [writtenRegisters, ha])
  case ldi =>
    obtain ⟨ra, ha, rfl, rfl⟩ := ldiStage_ok h
    exact .setReg _ (by simp [writtenRegisters, ha])
  case cmp => obtain ⟨_, _, -, -, rfl, rfl⟩ := compareStage_ok h; exact .compare _ _
  case push => obtain ⟨_, -, -, rfl, rfl⟩ := pushStage_ok h; exact .push _
  case call => obtain ⟨_, -, -, -, rfl, rfl⟩ := callStage_ok h; exact .call _ _
  case pop => obtain ⟨_, ha, -, rfl, rfl⟩ := popStage_ok h; exact .pop ha _
  case ret => obtain ⟨-, rfl, rfl⟩ := retStage_ok h; exact .ret _
  case prn => obtain ⟨_, ha, rfl, rfl⟩ := prnStage_ok h; exact .emit ha
  case hlt => obtain ⟨rfl, rfl⟩ : s = t ∧ Flow.halt = f := by simpa using h
              exact .halt
  all_goals exact stageEffect_of_jumpStage h

/-- A change that a step makes outside PC and RS is made by the completed stage of the instruction at PC
(60_exceptions.md R166). -/
theorem step_effect {s u : State} (h : step s = .next u) :
    (u.regs = s.regs ∧ u.fl = s.fl ∧ u.mem = s.mem ∧ u.out = s.out) ∨
    ∃ i rest t f, decode s.fetchBytes = .ok (i, rest) ∧ StageEffect s i t f ∧ u = t.follow i.operandCount f := by
  rcases step_next h with ⟨-, rfl⟩ | ⟨-, _, -, rfl⟩ | ⟨-, i, rest, hd, ⟨_, -, rfl⟩ | ⟨t, f, ht, rfl⟩⟩
  · exact .inl ⟨rfl, rfl, rfl, rfl⟩
  · exact .inl ⟨rfl, rfl, rfl, rfl⟩
  · exact .inl ⟨rfl, rfl, rfl, rfl⟩
  · exact .inr ⟨i, rest, t, f, hd, stageEffect_of_execStage ht, rfl⟩

/-- FL after a stage is as before, or what a comparison left (10_state.md R15). -/
theorem StageEffect.fl_cases {s t : State} {i : Instr} {f : Flow} (h : StageEffect s i t f) :
    t.fl = s.fl ∨ ∃ a b x y, i = .cmp a b ∧ t.fl = compareFlags x y := by
  cases h with
  | compare x y => exact .inr ⟨_, _, x, y, rfl, rfl⟩
  | setReg | branch | push | call | pop | ret | emit | halt => exact .inl rfl

/-- Memory after a stage is as before, or with the push slot written by PUSH or CALL (10_state.md R18). -/
theorem StageEffect.mem_cases {s t : State} {i : Instr} {f : Flow} (h : StageEffect s i t f) :
    t.mem = s.mem ∨ ∃ a v, (i = .push a ∨ i = .call a) ∧ t.mem = (s.memWrite (pushSlot s) v).mem := by
  cases h with
  | push v => exact .inr ⟨_, v, .inl rfl, rfl⟩
  | call v => exact .inr ⟨_, v, .inr rfl, rfl⟩
  | setReg | compare | branch | pop | ret | emit | halt => exact .inl rfl

/-- A stage leaves every register outside the written column of the table of 10_state.md R13. -/
theorem StageEffect.sameRegsBut {s t : State} {i : Instr} {f : Flow} (h : StageEffect s i t f) :
    SameRegsBut (writtenRegisters i) s t := by
  have hsp : sp = 7 := rfl
  intro q hq
  cases h with
  | setReg v hr => exact getReg_setReg_other s v (ne_of_mem_of_not_mem hr hq).symm
  | push v | call v => exact getReg_setReg_other s _ (by simpa [writtenRegisters, hsp] using hq)
  | pop ha v =>
    obtain ⟨hne, hne7⟩ : q ≠ _ ∧ q ≠ 7 := by simpa [writtenRegisters, ha] using hq
    rw [raiseSp_getReg_other _ hne7, getReg_setReg_other _ _ hne]
  | ret => exact raiseSp_getReg_other s (by simpa [writtenRegisters, hsp] using hq)
  | compare | branch | emit | halt => rfl

/-- Only HLT asks for the halt, and it writes nothing (44_load_print_halt.md R132). -/
theorem StageEffect.eq_of_halt {s t : State} {i : Instr} (h : StageEffect s i t .halt) : i = .hlt ∧ t = s := by
  cases h with
  | branch hf => exact absurd rfl hf
  | halt => exact ⟨rfl, rfl⟩

/-- The PC update halts a machine only for the flow `Halt` (40_execution_cycle.md R76 to R79). -/
theorem eq_halt_of_follow_halted {t : State} {c : Nat} {f : Flow} (ht : t.rs = .running)
    (h : (t.follow c f).rs = .halted) : f = .halt := by
  cases f with
  | sequential =>
    obtain ⟨hin, hpast⟩ := advance_pc_rs t c
    rcases Nat.lt_or_ge 255 (t.pc.toNat + c + 1) with hc | hc
    · simp [(hpast hc).2] at h
    · simp [(hin hc).2, ht] at h
  | jump target => simp [ht] at h
  | halt => rfl

/-- A completed stage keeps the invariant: it writes memory only through `memWrite` and FL only through
`compareFlags`. -/
theorem StageEffect.inv {s t : State} {i : Instr} {f : Flow} (h : StageEffect s i t f) (hs : s.Inv) : t.Inv := by
  obtain ⟨hmem, hfl⟩ := hs
  refine ⟨?_, ?_⟩
  · rcases h.mem_cases with e | ⟨_, v, -, e⟩
    · rwa [e]
    · rw [e]; exact memWrite_wf hmem _ v
  · rcases h.fl_cases with e | ⟨_, _, x, y, -, e⟩
    · rwa [e]
    · rw [e]; exact compareFlags_legal x y

end Sys2Proof.Machine
end

section
/-! A change of the state that an instruction neither reads nor writes passes through its cycle: the one argument
behind the non-interference statements (10_state.md R15, R20). -/

open Sys2Proof.Claims

namespace Sys2Proof.Machine

/-- The change `g` of the state touches nothing that the execute stage of `i` reads, and the writes of that stage
leave what `g` touches: registers and memory for every instruction, PC for CALL, FL for the conditional jumps and
CMP, the output for PRN. -/
structure Unseen (g : State → State) (i : Instr) : Prop where
  getReg : ∀ s r, (g s).getReg r = s.getReg r
  memRead : ∀ s a, (g s).memRead a = s.memRead a
  setReg : ∀ s r v, (g s).setReg r v = g (s.setReg r v)
  memWrite : ∀ s a v, (g s).memWrite a v = g (s.memWrite a v)
  pc : ∀ a, i = .call a → ∀ s, (g s).pc = s.pc
  fl : readsFlags i = true → ∀ s, (g s).fl = s.fl
  setFlags : writesFlags i = true → ∀ s v, (g s).setFlags v = g (s.setFlags v)
  emit : ∀ a, i = .prn a → ∀ s v, (g s).emit v = g (s.emit v)

/-- A change of the state, applied to what an execute stage answers. -/
def ExecResult.mapState (g : State → State) (x : ExecResult) : ExecResult := x.map fun p => (g p.1, p.2)

@[simp] theorem mapState_error (g : State → State) (r : FaultReason) :
    ExecResult.mapState g (.error r) = .error r := rfl
@[simp] theorem mapState_ok (g : State → State) (t : State) (f : Flow) :
    ExecResult.mapState g (.ok (t, f)) = .ok (g t, f) := rfl

theorem withReg_mapState {g : State → State} {a : Byte} {k k' : Reg → ExecResult}
    (h : ∀ r, k' r = (k r).mapState g) : withReg a k' = (withReg a k).mapState g := by
  unfold withReg
  split
  · exact h _
  · rfl

theorem withRegs_mapState {g : State → State} {a b : Byte} {k k' : Reg → Reg → ExecResult}
    (h : ∀ ra rb, k' ra rb = (k ra rb).mapState g) : withRegs a b k' = (withRegs a b k).mapState g :=
  withReg_mapState fun ra => withReg_mapState (h ra)

namespace Unseen

variable {g : State → State} {i : Instr} (h : Unseen g i) (s : State) (a b : Byte)
include h

theorem aluStage_eq (op : Byte → Byte → Byte) : aluStage op a b (g s) = (aluStage op a b s).mapState g :=
  withRegs_mapState fun ra rb => by simp [h.getReg, h.setReg]

theorem divideStage_eq (op : Byte → Byte → Byte) : divideStage op a b (g s) = (divideStage op a b s).mapState g :=
  withRegs_mapState fun ra rb => by
    rw [h.getReg, h.getReg, h.setReg]
    split <;> rfl

theorem jumpStage_eq (taken : Bool) : jumpStage taken a (g s) = (jumpStage taken a s).mapState g :=
  withReg_mapState fun ra => by simp [h.getReg]

theorem pushSlot_eq : pushSlot (g s) = pushSlot s := by simp [pushSlot, h.getReg]

theorem pushStage_eq : pushStage a (g s) = (pushStage a s).mapState g :=
  withReg_mapState fun ra => by
    simp only [lowerSp, h.getReg, h.pushSlot_eq, h.setReg]
    split_ifs <;> simp [h.getReg, h.memWrite]

theorem callStage_eq (hpc : (g s).pc = s.pc) : callStage a (g s) = (callStage a s).mapState g :=
  withReg_mapState fun ra => by
    simp only [lowerSp, h.getReg, h.pushSlot_eq, h.setReg, hpc]
    split_ifs <;> simp [h.getReg, h.memWrite]

theorem raiseSp_eq : raiseSp (g s) = g (raiseSp s) := by simp [raiseSp, h.getReg, h.setReg]

theorem stackTop_eq : stackTop (g s) = stackTop s := by simp [stackTop, h.getReg, h.memRead]

theorem popStage_eq : popStage a (g s) = (popStage a s).mapState g :=
  withReg_mapState fun ra => by
    rw [h.stackTop_eq]
    cases stackTop s <;> simp [h.setReg, h.raiseSp_eq]

theorem retStage_eq : retStage (g s) = (retStage s).mapState g := by
  rw [retStage, retStage, h.stackTop_eq]
  cases stackTop s <;> simp [h.raiseSp_eq]

/-- The execute stage does the same from the changed state, up to that change. -/
theorem execStage_eq : execStage i (g s) = (execStage i s).mapState g := by
  cases i with
  | add a b | sub a b | mul a b => exact h.aluStage_eq s a b _
  | div a b | mod a b => exact h.divideStage_eq s a b _
  | cmp a b => exact withRegs_mapState fun ra rb => by simp [h.getReg, h.setFlags rfl]
  | jmp a => exact h.jumpStage_eq s a _
  | jeq a | jne a | jgt a | jlt a | jle a | jge a =>
    simp only [execStage, State.eFlag, State.gFlag, State.lFlag, h.fl rfl]
    exact h.jumpStage_eq s a _
  | call a => exact h.callStage_eq s a (h.pc a rfl s)
  | ret => exact h.retStage_eq s
  | push a => exact h.pushStage_eq s a
  | pop a => exact h.popStage_eq s a
  | ldi a imm => exact withReg_mapState fun ra => by simp [h.setReg]
  | prn a => exact withReg_mapState fun ra => by simp [h.getReg, h.emit a rfl]
  | hlt => rfl

end Unseen

/-- The change `g` of the state touches neither PC nor RS. -/
structure KeepsPcRs (g : State → State) : Prop where
  pc : ∀ s, (g s).pc = s.pc
  setPc : ∀ s v, (g s).setPc v = g (s.setPc v)
  setRs : ∀ s rs, (g s).setRs rs = g (s.setRs rs)

theorem KeepsPcRs.takeFault {g : State → State} (h : KeepsPcRs g) (s : State) (r : FaultReason) :
    (g s).takeFault r = g (s.takeFault r) := h.setRs s _

theorem KeepsPcRs.follow {g : State → State} (h : KeepsPcRs g) (s : State) (c : Nat) (f : Flow) :
    (g s).follow c f = g (s.follow c f) := by
  cases f with
  | sequential =>
    simp only [follow_sequential, State.advance, h.pc, h.setPc, h.takeFault]
    split <;> rfl
  | jump target => exact h.setPc s target
  | halt => exact h.setRs s _

/-- A whole cycle does the same from a state changed where the instruction does not look. -/
theorem Unseen.exec_next {g : State → State} {i : Instr} (h : Unseen g i) (hg : KeepsPcRs g) {s t : State}
    (ht : exec i s = .next t) : exec i (g s) = .next (g t) := by
  rw [exec_eq_finish] at ht ⊢
  rw [h.execStage_eq]
  rcases finish_next ht with ⟨r, e, rfl⟩ | ⟨u, f, e, rfl⟩
  · simp [e, hg.takeFault]
  · simp [e, hg.follow]

/-! ## Another value in FL (10_state.md R15) -/

theorem keepsPcRs_setFlags (v : Byte) : KeepsPcRs (·.setFlags v) :=
  ⟨fun _ => rfl, fun _ _ => rfl, fun _ _ => rfl⟩

theorem unseen_setFlags {i : Instr} (hr : readsFlags i = false) (hw : writesFlags i = false) (v : Byte) :
    Unseen (·.setFlags v) i where
  getReg _ _ := rfl
  memRead _ _ := rfl
  setReg _ _ _ := rfl
  memWrite _ _ _ := rfl
  pc _ _ _ := rfl
  fl h := by simp [hr] at h
  setFlags h := by simp [hw] at h
  emit _ _ _ _ := rfl

theorem writesFlags_iff {i : Instr} : writesFlags i = true ↔ ∃ a b, i = .cmp a b := by
  cases i with
  | cmp a b => exact ⟨fun _ => ⟨a, b, rfl⟩, fun _ => rfl⟩
  | _ => simp [writesFlags]

@[simp] theorem setFlags_setFlags (s : State) (v w : Byte) : (s.setFlags v).setFlags w = s.setFlags w := rfl

/-- A byte that passes the register check names a register. -/
theorem exists_regOfByte {a : Byte} (h : regByteOk a = true) : ∃ r, regOfByte a = some r := by
  rw [← Option.ne_none_iff_exists']
  simp [regOfByte_eq_none, h]

/-- CMP overwrites FL whatever it held, if its register bytes pass the check. -/
theorem execCmp_setFlags_of_wellFormed {a b : Byte} (h : (Instr.cmp a b).wellFormed = true) (s : State) (v : Byte) :
    exec (.cmp a b) (s.setFlags v) = exec (.cmp a b) s := by
  obtain ⟨ha, hb⟩ : regByteOk a = true ∧ regByteOk b = true := by
    simpa [Instr.wellFormed, Instr.registerBytes] using h
  obtain ⟨ra, hra⟩ := exists_regOfByte ha
  obtain ⟨rb, hrb⟩ := exists_regOfByte hb
  obtain rfl := byteOfReg_of_regOfByte hra
  obtain rfl := byteOfReg_of_regOfByte hrb
  simp only [exec_eq_finish, execStage, compareStage, withRegs_byteOfReg, finish_ok, setFlags_getReg,
    setFlags_setFlags]

/-- CMP with a register byte of 8 or more faults with FL as it was (40_execution_cycle.md R74). -/
theorem execCmp_of_not_wellFormed {a b : Byte} (h : (Instr.cmp a b).wellFormed = false) (s : State) :
    exec (.cmp a b) s = .next (s.takeFault .registerIndexOutOfRange) := by
  have hbad : regOfByte a = none ∨ regOfByte b = none := by
    simpa [Instr.wellFormed, Instr.registerBytes, regOfByte_eq_none, or_iff_not_imp_left] using h
  have hstage : execStage (.cmp a b) s = .error .registerIndexOutOfRange := by
    rcases hbad with ha | hb
    · simp [execStage, compareStage, withRegs, withReg, ha]
    · cases ha : regOfByte a <;> simp [execStage, compareStage, withRegs, withReg, ha, hb]
  rw [exec_eq_finish, hstage, finish_error]

/-! ## Another output history (10_state.md R20) -/

/-- The state with another output history. -/
def State.withOut (s : State) (o : List Byte) : State := { s with out := o }

theorem keepsPcRs_withOut (o : List Byte) : KeepsPcRs (·.withOut o) :=
  ⟨fun _ => rfl, fun _ _ => rfl, fun _ _ => rfl⟩

theorem unseen_withOut {i : Instr} (hi : ∀ a, i ≠ .prn a) (o : List Byte) : Unseen (·.withOut o) i where
  getReg _ _ := rfl
  memRead _ _ := rfl
  setReg _ _ _ := rfl
  memWrite _ _ _ := rfl
  pc _ _ _ := rfl
  fl _ _ := rfl
  setFlags _ _ _ := rfl
  emit a h := absurd h (hi a)

/-- The bytes an instruction delivers: PRN its register's value, any other instruction none
(50_interfaces.md R145). -/
def emittedBy (s : State) : Instr → List Byte
  | .prn a => (regOfByte a).toList.map s.getReg
  | _ => []

theorem execPrn_withOut {a : Byte} {s t : State} (h : exec (.prn a) s = .next t) (o : List Byte) :
    exec (.prn a) (s.withOut o) = .next (t.withOut (o ++ emittedBy s (.prn a))) := by
  rw [exec_eq_finish] at h ⊢
  cases ha : regOfByte a with
  | none =>
    simp only [execStage, prnStage, withReg, ha, finish_error, Host.Outcome.next.injEq] at h ⊢
    subst h
    rw [show emittedBy s (.prn a) = [] by simp [emittedBy, ha], List.append_nil]
    rfl
  | some ra =>
    simp only [execStage, prnStage, withReg, ha, finish_ok, Host.Outcome.next.injEq] at h ⊢
    subst h
    rw [show emittedBy s (.prn a) = [s.getReg ra] by simp [emittedBy, ha]]
    exact (keepsPcRs_withOut (o ++ [s.getReg ra])).follow (s.emit (s.getReg ra)) 1 .sequential

/-- An instruction does the same from any output history and appends its bytes to that history. -/
theorem exec_withOut {i : Instr} {s t : State} (h : exec i s = .next t) (o : List Byte) :
    exec i (s.withOut o) = .next (t.withOut (o ++ emittedBy s i)) := by
  by_cases hi : ∀ a, i ≠ .prn a
  · have hnone : emittedBy s i = [] := by cases i with
      | prn a => exact absurd rfl (hi a)
      | _ => rfl
    rw [hnone, List.append_nil]
    exact (unseen_withOut hi o).exec_next (keepsPcRs_withOut o) h
  · push Not at hi
    obtain ⟨a, rfl⟩ := hi
    exact execPrn_withOut h o

/-- A step does the same from any output history and appends the same bytes to each. -/
theorem step_withOut {s t : State} (h : step s = .next t) :
    ∃ emitted, ∀ o, step (s.withOut o) = .next (t.withOut (o ++ emitted)) := by
  by_cases hs : s.rs = .running
  · have hfetch : ∀ o, (s.withOut o).fetchBytes = s.fetchBytes := fun o => fetchBytes_congr rfl rfl
    cases hd : decode s.fetchBytes with
    | error e =>
      rw [step_of_decodeError hs hd, Host.Outcome.next.injEq] at h
      subst h
      refine ⟨[], fun o => ?_⟩
      rw [List.append_nil, step_of_decodeError (s := s.withOut o) hs (hfetch o ▸ hd)]
      rfl
    | ok p =>
      rw [step_of_decode hs hd] at h
      refine ⟨emittedBy s p.1, fun o => ?_⟩
      rw [step_of_decode (s := s.withOut o) hs (hfetch o ▸ hd)]
      exact exec_withOut h o
  · rw [step_of_terminal hs, Host.Outcome.next.injEq] at h
    subst h
    exact ⟨[], fun o => by rw [List.append_nil]; exact step_of_terminal hs⟩

end Sys2Proof.Machine
end

section
/-! The statements on the parts of the state (10_state.md). -/

namespace Sys2Proof.Proofs

open Machine Claims

/-- Settles O38: every change of memory or FL is a completed stage's. -/
theorem stepKeepsInvariant : Obligations.StepKeepsInvariant := by
  intro s u hs h
  rcases step_effect h with ⟨-, hfl, hmem, -⟩ | ⟨i, _, t, f, -, ht, rfl⟩
  · obtain ⟨hwf, hlegal⟩ := hs
    exact ⟨hmem ▸ hwf, hfl ▸ hlegal⟩
  · obtain ⟨hmem, hfl⟩ := ht.inv hs
    exact ⟨by rwa [follow_mem], by rwa [follow_fl]⟩

/-- Settles O28, by induction on the number of steps. -/
theorem terminalStatesAreFrozen : Obligations.TerminalStatesAreFrozen := by
  intro k s hs
  induction k with
  | zero => rfl
  | succ k ih =>
    have hstep : Sys2Proof.core.step s = .next s := step_of_terminal hs
    simp only [Host.Core.run, hstep]
    exact ih

/-- Settles O31: of the ends of a cycle only the flow `Halt` leaves RS `Halted`. -/
theorem onlyHltReachesHalted : Obligations.OnlyHltReachesHalted := by
  intro s u hs h hu
  rcases step_next h with ⟨hns, -⟩ | ⟨-, _, -, rfl⟩ | ⟨-, i, rest, hd, ⟨_, -, rfl⟩ | ⟨t, f, ht, rfl⟩⟩
  · exact absurd hs hns
  · simp at hu
  · simp at hu
  · obtain rfl := eq_halt_of_follow_halted ((execStage_pc_rs ht).2.trans hs) hu
    obtain ⟨rfl, rfl⟩ := (stageEffect_of_execStage ht).eq_of_halt
    exact ⟨(Option.some.inj (memRead_pc_of_decode hd)).symm, rfl⟩

/-- Settles O32: the one stage that changes FL is CMP's, and the byte at PC is then CMP's opcode. -/
theorem onlyCmpWritesFlags : Obligations.OnlyCmpWritesFlags := by
  intro s u h hne
  rcases step_effect h with ⟨-, hfl, -, -⟩ | ⟨i, rest, t, f, hd, ht, rfl⟩
  · exact absurd hfl hne
  · rw [follow_fl] at hne
    obtain ⟨a, b, _, _, rfl, -⟩ := ht.fl_cases.resolve_left hne
    exact (Option.some.inj (memRead_pc_of_decode hd)).symm

/-- Settles O33: but for CMP, another FL passes through the cycle; CMP overwrites it or faults before it writes. -/
theorem onlyConditionalJumpsReadFlags : Obligations.OnlyConditionalJumpsReadFlags := by
  intro i s t f hr h
  by_cases hw : writesFlags i = true
  · obtain ⟨a, b, rfl⟩ := writesFlags_iff.1 hw
    by_cases hwf : (Instr.cmp a b).wellFormed = true
    · simp only [writesFlags, hwf, Bool.and_self, if_true]
      exact (execCmp_setFlags_of_wellFormed hwf s f).trans h
    · rw [Bool.not_eq_true] at hwf
      rw [execCmp_of_not_wellFormed hwf, Host.Outcome.next.injEq] at h ⊢
      subst h
      simp only [hwf, Bool.and_false]
      rfl
  · rw [Bool.not_eq_true] at hw
    simp only [hw, Bool.false_and]
    exact (unseen_setFlags hr hw f).exec_next (keepsPcRs_setFlags f) h

/-- Settles O34: the one cell a stage can write is the push slot. -/
theorem onlyPushAndCallWriteMemory : Obligations.OnlyPushAndCallWriteMemory := by
  intro s u a h hne
  rcases step_effect h with ⟨-, -, hmem, -⟩ | ⟨i, rest, t, f, hd, ht, rfl⟩
  · exact absurd (congrArg (Memory.read · a.toNat) hmem) hne
  · rw [follow_memRead] at hne
    rcases ht.mem_cases with hmem | ⟨b, v, hi, hmem⟩
    · exact absurd (congrArg (Memory.read · a.toNat) hmem) hne
    · refine ⟨?_, ?_⟩
      · rcases hi with rfl | rfl
        · exact .inl (Option.some.inj (memRead_pc_of_decode hd)).symm
        · exact .inr (Option.some.inj (memRead_pc_of_decode hd)).symm
      · by_contra hslot
        have hother : t.memRead a = s.memRead a :=
          (congrArg (Memory.read · a.toNat) hmem).trans (memRead_memWrite_other s v hslot)
        exact hne hother

/-- Settles O35: a fault changes no register, and a completed stage only those of the table. -/
theorem registersChangeAsTabled : Obligations.RegistersChangeAsTabled := by
  intro i s u h r hr
  rw [exec_eq_finish] at h
  rcases finish_next h with ⟨_, -, rfl⟩ | ⟨t, f, ht, rfl⟩
  · rfl
  · rw [follow_getReg]
    exact (stageEffect_of_execStage ht).sameRegsBut r hr

/-- Settles O37: the step from the history the state has says what `emitted` is. -/
theorem outputHistoryIsNeverRead : Obligations.OutputHistoryIsNeverRead := by
  intro s t h
  obtain ⟨emitted, hout⟩ := step_withOut h
  have hself : t = t.withOut (s.out ++ emitted) := Host.Outcome.next.inj (h.symm.trans (hout s.out))
  exact ⟨emitted, congrArg State.out hself, hout⟩

/-- Settles O39: no cell is listed at reset, and FL is zero. -/
theorem resetMeetsInvariant : Obligations.ResetMeetsInvariant :=
  ⟨⟨List.Pairwise.nil, fun _ hc => absurd hc List.not_mem_nil⟩, rfl⟩

/-- Settles O40, by evaluating the reset state. -/
theorem resetState : Obligations.ResetState :=
  ⟨by decide, rfl, rfl, rfl, fun _ => rfl, rfl⟩

end Sys2Proof.Proofs
end

section
/-! Fetches of the byte a push has just stored (20_memory.md R41). -/

namespace Sys2Proof.Machine

/-- The first byte a fetch sees is the one at PC (40_execution_cycle.md R71). -/
theorem fetchBytes_head?_eq (s : State) : s.fetchBytes.head? = some (s.memRead s.pc) := by
  obtain ⟨tail, htail⟩ := fetchBytes_head s
  rw [htail, List.head?_cons]

/-- The cell a push has stored to holds the pushed byte. -/
theorem memRead_pushByte_slot {s : State} (h : s.mem.wf) (v : Byte) : (s.pushByte v).memRead (pushSlot s) = v :=
  memRead_memWrite_same (s := s.setReg sp (pushSlot s)) h (pushSlot s) v

/-- PUSH with SP not 0 pushes its operand, read after SP is lowered, and goes on (43_stack.md R120). -/
theorem execPush_of_sp_ne_zero {s : State} (h : s.getReg sp ≠ 0) (ra : Reg) :
    exec (.push (byteOfReg ra)) s =
      .next ((s.pushByte ((s.setReg sp (pushSlot s)).getReg ra)).advance 1) := by
  obtain ⟨h0, -⟩ | ⟨-, hlower⟩ := lowerSp_cases s
  · exact absurd h0 h
  · rw [exec_eq_finish, execStage, pushStage, withReg_byteOfReg, hlower]
    rfl

end Sys2Proof.Machine
end

section
/-! The statement on self-modification (20_memory.md). -/

namespace Sys2Proof.Proofs

open Machine Claims

/-- Settles O24: the fetch starts at PC, which is the slot the PUSH stored to, and lowering SP left the operand
register as it was. -/
theorem pushedByteIsFetchedNext : Obligations.PushedByteIsFetchedNext := by
  intro s t ra hwf hsp hra hexec hpc
  have hread : (s.setReg sp (pushSlot s)).getReg ra = s.getReg ra := getReg_setReg_other s _ hra
  rw [execPush_of_sp_ne_zero hsp, hread, Host.Outcome.next.injEq] at hexec
  subst hexec
  rw [fetchBytes_head?_eq, hpc, advance_memRead, memRead_pushByte_slot hwf]

end Sys2Proof.Proofs
end

section
/-! The decoder reads back what the encoder writes, and an opcode byte settles the instruction's constructor and
operand count (30_encoding.md R50 to R53, R56). -/

namespace Sys2Proof

/-! ## Decoding by format (R51) -/

theorem decode_of_f0 {op : Byte} {i : Instr} {rest : List Byte} (h : lookupOpcode op = some (.f0 i)) :
    decode (op :: rest) = .ok (i, rest) := by simp [decode, h]

theorem decode_of_f1 {op a : Byte} {mk : Byte → Instr} {rest : List Byte} (h : lookupOpcode op = some (.f1 mk)) :
    decode (op :: a :: rest) = .ok (mk a, rest) := by simp [decode, h]

theorem decode_of_f2 {op a b : Byte} {mk : Byte → Byte → Instr} {rest : List Byte}
    (h : lookupOpcode op = some (.f2 mk)) : decode (op :: a :: b :: rest) = .ok (mk a b, rest) := by
  simp [decode, h]

/-- The bytes of an instruction decode to it, whatever its operand bytes and whatever follows them. -/
theorem decode_encode_append (i : Instr) (rest : List Byte) : decode (encode i ++ rest) = .ok (i, rest) := by
  cases i with
  | hlt | ret => exact decode_of_f0 rfl
  | push a | pop a | prn a | call a => exact decode_of_f1 rfl
  | jmp a | jeq a | jne a | jgt a | jlt a | jle a | jge a => exact decode_of_f1 rfl
  | ldi a imm => exact decode_of_f2 rfl
  | add a b | sub a b | mul a b | div a b | mod a b | cmp a b => exact decode_of_f2 rfl

/-! ## The opcode byte (R53) -/

/-- The encoding of an instruction is its opcode byte, whose bits [7:6] count the operands, and that many operands. -/
theorem exists_encode_eq_cons (i : Instr) :
    ∃ op operands, encode i = op :: operands ∧ operands.length = i.operandCount ∧
      (op.extractLsb 7 6).toNat = i.operandCount := by
  cases i <;> exact ⟨_, _, rfl, rfl, rfl⟩

/-- The constructor of the instructions that a row of the opcode map builds: whatever the operand bytes, so zeros
stand for them. -/
def Format.builtCtorIdx : Format → Nat
  | .f0 i => i.ctorIdx
  | .f1 mk => (mk 0).ctorIdx
  | .f2 mk => (mk 0 0).ctorIdx

/-- The row of an instruction's opcode byte builds instructions of its constructor. -/
theorem lookupOpcode_builtCtorIdx {i : Instr} {op : Byte} (h : (encode i).head? = some op) :
    (lookupOpcode op).map Format.builtCtorIdx = some i.ctorIdx := by
  cases i <;> cases h <;> rfl

/-- Two instructions with the same opcode byte have the same constructor: the map has one row for the byte. -/
theorem ctorIdx_eq_of_head?_encode {i j : Instr} {op : Byte} (hi : (encode i).head? = some op)
    (hj : (encode j).head? = some op) : j.ctorIdx = i.ctorIdx :=
  Option.some.inj ((lookupOpcode_builtCtorIdx hj).symm.trans (lookupOpcode_builtCtorIdx hi))

end Sys2Proof
end

section
/-! The statements on the encoding (30_encoding.md). -/

namespace Sys2Proof.Proofs

/-- Settles O1: what decodes is an encoding and its remainder, and an encoding decodes back, format by format. -/
theorem decodeIsInverseOfEncode : Obligations.DecodeIsInverseOfEncode := by
  intro i bs rest
  constructor
  · exact eq_encode_append_of_decode
  · rintro rfl
    exact decode_encode_append i rest

/-- Settles O3: the opcode byte fixes the row of the opcode map, and the row the constructor. -/
theorem opcodeCarriesOperandCount : Obligations.OpcodeCarriesOperandCount := by
  intro i
  obtain ⟨op, operands, henc, hlength, hbits⟩ := exists_encode_eq_cons i
  have hhead : (encode i).head? = some op := by rw [henc, List.head?_cons]
  exact ⟨op, operands, henc, hlength, hbits, fun _ hj => ctorIdx_eq_of_head?_encode hhead hj⟩

/-- Settles O2: each word is the encoding of its instruction with nothing after it. -/
theorem specWordsDecode : Obligations.SpecWordsDecode :=
  ⟨decode_encode_append .hlt [], decode_encode_append .ret [], decode_encode_append (.push 3) [],
    decode_encode_append (.call 1) [], decode_encode_append (.jne 2) [], decode_encode_append (.ldi 0 8) [],
    decode_encode_append (.sub 0 1) [], decode_encode_append (.cmp 6 7) []⟩

end Sys2Proof.Proofs
end

section
/-! What the stages of a cycle answer: the fetch from the bytes in memory, the register check, the flow of the execute
stage and the PC update (40_execution_cycle.md R71 to R80). -/

open Sys2Proof.Claims

namespace Sys2Proof

/-! ## The encoding and the decoder's errors (30_encoding.md R51, R56) -/

theorem encode_length (i : Instr) : (encode i).length = i.operandCount + 1 := by
  obtain ⟨op, operands, henc, hlength, -⟩ := exists_encode_eq_cons i
  rw [henc, List.length_cons, hlength]

theorem operandCount_le_two (i : Instr) : i.operandCount ≤ 2 := by
  cases i <;> simp [Instr.operandCount]

/-- Bits [7:6] of the opcode byte count an instruction's operands (R53). -/
theorem extractLsb_of_head?_encode {i : Instr} {op : Byte} (h : (encode i).head? = some op) :
    (op.extractLsb 7 6).toNat = i.operandCount := by
  obtain ⟨op', operands, henc, -, hbits⟩ := exists_encode_eq_cons i
  obtain rfl : op' = op := by simpa [henc] using h
  exact hbits

/-- The assigned opcode bytes are those of the opcode map. -/
theorem lookupOpcode_eq_none_iff {op : Byte} : lookupOpcode op = none ↔ op ∉ assignedOpcodes := by
  have hmap : assignedOpcodes = opcodeMap.map Prod.fst := rfl
  rw [lookupOpcode, Option.map_eq_none_iff, List.find?_eq_none, hmap]
  constructor
  · intro h hop
    obtain ⟨row, hrow, rfl⟩ := List.mem_map.1 hop
    simpa using h row hrow
  · intro h row hrow heq
    exact h (beq_iff_eq.1 heq ▸ List.mem_map_of_mem hrow)

/-- Bytes that start with an assigned opcode and are no instruction end too early. -/
theorem decode_error_of_assigned {op : Byte} {tail : List Byte} {e : DecodeError} (hop : op ∈ assignedOpcodes)
    (h : decode (op :: tail) = .error e) : e = .missingByte := by
  cases hform : lookupOpcode op with
  | none => exact absurd hop (lookupOpcode_eq_none_iff.1 hform)
  | some form =>
    cases form with
    | f0 i => rw [decode_of_f0 hform] at h; cases h
    | f1 mk =>
      match tail, h with
      | [], h => simpa [decode, hform] using h.symm
      | a :: tail, h => rw [decode_of_f1 hform] at h; cases h
    | f2 mk =>
      match tail, h with
      | [], h | [_], h => simpa [decode, hform] using h.symm
      | a :: b :: tail, h => rw [decode_of_f2 hform] at h; cases h

/-- An instruction is ill-formed when a register operand byte fails the check. -/
theorem wellFormed_eq_false_iff {i : Instr} :
    i.wellFormed = false ↔ ∃ b ∈ i.registerBytes, regByteOk b = false := by
  simp [Instr.wellFormed]

end Sys2Proof

namespace Sys2Proof.Machine

/-! ## The fetch (R71 to R73) -/

/-- Byte `k` of a fetch is the byte `k` cells above PC, where that cell exists (R72). -/
theorem fetchBytes_getElem? {s : State} {k : Nat} (hk : k ≤ 2) (h : s.pc.toNat + k ≤ 255) :
    s.fetchBytes[k]? = some (s.memRead (BitVec.ofNat 8 (s.pc.toNat + k))) := by
  have hcell : ∀ j ≤ k, s.memReadExact (s.pc.toNat + j) = some (s.memRead (BitVec.ofNat 8 (s.pc.toNat + j))) :=
    fun j hj => memReadExact_inside s (by omega)
  have h0 : s.memReadExact s.pc.toNat = _ := hcell 0 (Nat.zero_le k)
  rw [fetchBytes_eq, h0]
  match k, hk with
  | 0, _ => rfl
  | 1, _ => rw [hcell 1 (by omega)]; rfl
  | 2, _ => rw [hcell 1 (by omega), hcell 2 (by omega)]; rfl

/-- A fetch sees no cell past address 255 (R73). -/
theorem fetchBytes_length_le (s : State) : s.pc.toNat + s.fetchBytes.length ≤ 256 := by
  have hpc : s.pc.toNat < 256 := s.pc.isLt
  have hlen : ∀ a, (s.memReadExact a).toList.length = if a < 256 then 1 else 0 := by
    intro a
    by_cases ha : a < 256
    · simp [memReadExact_inside s ha, ha]
    · simp [memReadExact_past s (Nat.le_of_not_lt ha), ha]
  simp only [fetchBytes_eq, List.length_append, hlen]
  split_ifs <;> omega

/-- An instruction whose bytes lie from PC on is at the front of what the fetch sees (R72). -/
theorem fetchBytes_startsWith_encode {s : State} {i : Instr} (hend : s.pc.toNat + i.operandCount ≤ 255)
    (hmem : ∀ k b, (encode i)[k]? = some b → s.memRead (BitVec.ofNat 8 (s.pc.toNat + k)) = b) :
    encode i <+: s.fetchBytes := by
  rw [List.prefix_iff_getElem?]
  intro k hk
  have hcount := operandCount_le_two i
  have hlength := encode_length i
  rw [fetchBytes_getElem? (by omega) (by omega), hmem k _ (List.getElem?_eq_getElem hk)]

/-- An assigned opcode whose last operand byte would lie past address 255 leaves the decoder short of a byte (R73). -/
theorem decode_fetchBytes_of_past_end {s : State} (hop : s.memRead s.pc ∈ assignedOpcodes)
    (hpast : 255 < s.pc.toNat + ((s.memRead s.pc).extractLsb 7 6).toNat) :
    decode s.fetchBytes = .error .missingByte := by
  cases hd : decode s.fetchBytes with
  | error e =>
    obtain ⟨tail, htail⟩ := fetchBytes_head s
    rw [htail] at hd
    rw [decode_error_of_assigned hop hd]
  | ok p =>
    obtain ⟨i, rest⟩ := p
    have hcount := extractLsb_of_head?_encode (memRead_pc_of_decode hd)
    have hfit := fetchBytes_length_le s
    rw [eq_encode_append_of_decode hd, List.length_append, encode_length] at hfit
    omega

/-! ## The register check (R74) -/

theorem withReg_of_bad_mem {a : Byte} (h : ∃ c ∈ [a], regByteOk c = false) (k : Reg → ExecResult) :
    withReg a k = .error .registerIndexOutOfRange :=
  withReg_bad (by simpa using h) k

theorem withRegs_of_bad_mem {a b : Byte} (h : ∃ c ∈ [a, b], regByteOk c = false) (k : Reg → Reg → ExecResult) :
    withRegs a b k = .error .registerIndexOutOfRange := by
  by_cases ha : regByteOk a = false
  · exact withReg_bad ha _
  · have hb : regByteOk b = false := by simpa [ha] using h
    obtain ⟨ra, hra⟩ := exists_regOfByte (Bool.of_not_eq_false ha)
    obtain rfl := byteOfReg_of_regOfByte hra
    rw [withRegs, withReg_byteOfReg, withReg_bad hb]

/-- The register check stands in front of every execute stage. -/
theorem execStage_of_not_wellFormed {i : Instr} (h : i.wellFormed = false) (s : State) :
    execStage i s = .error .registerIndexOutOfRange := by
  have hbad := wellFormed_eq_false_iff.1 h
  cases i with
  | add a b | sub a b | mul a b | div a b | mod a b | cmp a b => exact withRegs_of_bad_mem hbad _
  | jmp a | jeq a | jne a | jgt a | jlt a | jle a | jge a => exact withReg_of_bad_mem hbad _
  | call a | push a | pop a | prn a | ldi a imm => exact withReg_of_bad_mem hbad _
  | ret | hlt => simp [Instr.registerBytes] at hbad

/-! ## The flow of a completed execute stage (R75, R77) -/

/-- A completed execute stage ends in `Continue` exactly for the instructions and FL that `continues` names. -/
theorem flow_eq_sequential_iff {i : Instr} {s t : State} {f : Flow} (h : execStage i s = .ok (t, f)) :
    f = .sequential ↔ continues s.fl i = true := by
  cases i <;> simp only [execStage] at h
  case add | sub | mul => obtain ⟨_, _, -, -, -, rfl⟩ := aluStage_ok h; simp [continues]
  case div | mod => obtain ⟨_, _, -, -, -, -, rfl⟩ := divideStage_ok h; simp [continues]
  case cmp => obtain ⟨_, _, -, -, -, rfl⟩ := compareStage_ok h; simp [continues]
  case push => obtain ⟨_, -, -, rfl, -⟩ := pushStage_ok h; simp [continues]
  case pop => obtain ⟨_, -, -, rfl, -⟩ := popStage_ok h; simp [continues]
  case ldi => obtain ⟨_, -, -, rfl⟩ := ldiStage_ok h; simp [continues]
  case prn => obtain ⟨_, -, -, rfl⟩ := prnStage_ok h; simp [continues]
  case call => obtain ⟨_, -, -, -, rfl, -⟩ := callStage_ok h; simp [continues]
  case ret => obtain ⟨-, -, rfl⟩ := retStage_ok h; simp [continues]
  case hlt =>
    obtain ⟨-, rfl⟩ : s = t ∧ Flow.halt = f := by simpa using h
    simp [continues]
  all_goals
    obtain ⟨_, -, -, rfl⟩ := jumpStage_ok h
    rw [jumpFlow_eq_sequential]
    simp [continues, State.eFlag, State.gFlag, State.lFlag]

/-! ## The same instruction at another PC (R78) -/

/-- Only CALL reads PC in its execute stage, and no stage writes it. -/
theorem unseen_setPc {i : Instr} (hi : ∀ a, i ≠ .call a) (p : Byte) : Unseen (·.setPc p) i where
  getReg _ _ := rfl
  memRead _ _ := rfl
  setReg _ _ _ := rfl
  memWrite _ _ _ := rfl
  pc a h := absurd h (hi a)
  fl _ _ := rfl
  setFlags _ _ _ := rfl
  emit _ _ _ _ := rfl

theorem ne_call_of_continues {fl : Byte} {i : Instr} (h : continues fl i = true) : ∀ a, i ≠ .call a := by
  rintro a rfl
  cases h

/-- An instruction that ends in `Continue` and completes from PC `p` has completed its execute stage from any PC, with
the same writes. -/
theorem execStage_of_exec_setPc {i : Instr} {s u : State} {p : Byte} (hi : continues s.fl i = true)
    (h : exec i (s.setPc p) = .next u) (hu : u.rs = .running) :
    ∃ t, execStage i s = .ok (t, .sequential) ∧ u = (t.setPc p).advance i.operandCount := by
  rw [exec_eq_finish, (unseen_setPc (ne_call_of_continues hi) p).execStage_eq] at h
  cases hstage : execStage i s with
  | error r =>
    rw [hstage, mapState_error, finish_error, Host.Outcome.next.injEq] at h
    simp [← h] at hu
  | ok q =>
    obtain ⟨t, f⟩ := q
    obtain rfl := (flow_eq_sequential_iff hstage).2 hi
    rw [hstage, mapState_ok, finish_ok, Host.Outcome.next.injEq] at h
    exact ⟨t, rfl, h.symm⟩

/-! ## The end of a cycle (R80) -/

theorem exists_finish_eq_next (c : Nat) (s : State) (x : ExecResult) : ∃ t, finish c s x = .next t := by
  match x with
  | .error r => exact ⟨_, finish_error c s r⟩
  | .ok (t, f) => exact ⟨_, finish_ok c s t f⟩

end Sys2Proof.Machine
end

section
/-! The statements on the instruction cycle (40_execution_cycle.md). -/

namespace Sys2Proof.Proofs

open Machine Claims

/-- Settles O5: the fetch sees the instruction's bytes first, and they decode to it. -/
theorem stepRunsInstructionInMemory : Obligations.StepRunsInstructionInMemory := by
  intro s i hs hend hmem
  obtain ⟨rest, hfetch⟩ := fetchBytes_startsWith_encode hend hmem
  have hd : decode s.fetchBytes = .ok (i, rest) := hfetch ▸ decode_encode_append i rest
  exact step_of_decode hs hd

/-- Settles O7: the fetch cannot hold the bytes that the opcode's count field asks for. -/
theorem operandFetchPastEndFaults : Obligations.OperandFetchPastEndFaults :=
  fun _ hs hop hpast => step_of_decodeError hs (decode_fetchBytes_of_past_end hop hpast)

/-- Settles O8: the register check fails before the execute stage of any instruction. -/
theorem registerByteOutOfRangeFaults : Obligations.RegisterByteOutOfRangeFaults := by
  rintro i s ⟨b, hb, hge⟩
  have hbad : regByteOk b = false := decide_eq_false (Nat.not_lt.2 hge)
  have hwf : i.wellFormed = false := wellFormed_eq_false_iff.2 ⟨b, hb, hbad⟩
  rw [exec_eq_finish, execStage_of_not_wellFormed hwf, finish_error]
  rfl

/-- Settles O9: the execute stage writes the same from both PCs, and only the advance after it differs. -/
theorem advancePastEndKeepsWrites : Obligations.AdvancePastEndKeepsWrites := by
  intro i s u p hi _ hpast hroom h hu
  obtain ⟨t, hstage, rfl⟩ := execStage_of_exec_setPc hi h hu
  have hpc : t.pc = s.pc := (execStage_pc_rs hstage).1
  rw [exec_eq_finish, hstage, finish_ok, follow_sequential, advance_past (hpc ▸ hpast),
    advance_inside (s := t.setPc p) hroom, ← hpc]
  rfl

/-- Settles O10: a terminal state answers itself, bytes that are no instruction their fault, and an instruction the end
of its cycle. -/
theorem stepAlwaysAnswersNext : Obligations.StepAlwaysAnswersNext := by
  intro s
  by_cases hs : s.rs = .running
  · cases hd : decode s.fetchBytes with
    | error e => exact ⟨_, step_of_decodeError hs hd⟩
    | ok p =>
      rw [step_of_decode hs hd, exec_eq_finish]
      exact exists_finish_eq_next _ s _
  · exact ⟨s, step_of_terminal hs⟩

/-- Settles O4: a step of decoded bytes is their instruction's `exec`, well-formed or not. -/
theorem stepRunsDecodedInstruction : Obligations.StepRunsDecodedInstruction :=
  fun _ _ _ hs hd _ => step_of_decode hs hd

end Sys2Proof.Proofs
end

section
/-! What the ALU stages answer for two registers, and the frame of the cycle they end (41_alu.md R90 to R99). -/

open Sys2Proof.Claims

namespace Sys2Proof.Machine

/-! ## The cycle of a stage that continues (40_execution_cycle.md R77, R78) -/

theorem exec_of_sequential {i : Instr} {s t : State} (h : execStage i s = .ok (t, .sequential)) :
    exec i s = .next (t.advance i.operandCount) := by
  rw [exec_eq_finish, h, finish_ok, follow_sequential]

theorem afterContinue_advance {s t : State} (hpc : t.pc = s.pc) (hrs : t.rs = s.rs) (c : Nat) :
    AfterContinue (c + 1) s (t.advance c) := by
  have h := advance_pc_rs t c
  rwa [hpc, hrs] at h

/-! ## The stages on two registers (R90 to R96) -/

section Stages

variable (g : Byte → Byte → Byte) (s : State) (ra : Reg) {rb : Reg}

theorem aluStage_byteOfReg :
    aluStage g (byteOfReg ra) (byteOfReg rb) s =
      .ok (s.setReg ra (g (s.getReg ra) (s.getReg rb)), .sequential) :=
  withRegs_byteOfReg ra rb _

theorem divideStage_of_ne_zero (h : s.getReg rb ≠ 0) :
    divideStage g (byteOfReg ra) (byteOfReg rb) s =
      .ok (s.setReg ra (g (s.getReg ra) (s.getReg rb)), .sequential) :=
  (withRegs_byteOfReg ra rb _).trans (if_neg h)

theorem divideStage_of_eq_zero (h : s.getReg rb = 0) :
    divideStage g (byteOfReg ra) (byteOfReg rb) s = .error .divisionByZero :=
  (withRegs_byteOfReg ra rb _).trans (if_pos h)

theorem compareStage_byteOfReg :
    compareStage (byteOfReg ra) (byteOfReg rb) s =
      .ok (s.setFlags (compareFlags (s.getReg ra) (s.getReg rb)), .sequential) :=
  withRegs_byteOfReg ra rb _

end Stages

theorem exec_of_divisionByZero {i : Instr} {s : State} (h : execStage i s = .error .divisionByZero) :
    exec i s = .next (faultedWith .divisionByZero s) := by
  rw [exec_eq_finish, h, finish_error]
  rfl

/-! ## The frame of a register-writing ALU instruction -/

/-- A stage that writes the exact result modulo 256 to `x[a]` and continues does all that `AluWrites` asks. -/
theorem aluWrites_of_execStage {op v : Byte} {mk : Byte → Byte → Instr} {f : Int → Int → Int} {s : State} {ra rb : Reg}
    (henc : encode (mk (byteOfReg ra) (byteOfReg rb)) = [op, byteOfReg ra, byteOfReg rb])
    (hstage : execStage (mk (byteOfReg ra) (byteOfReg rb)) s = .ok (s.setReg ra v, .sequential))
    (hv : (v.toNat : Int) = f (s.getReg ra).toNat (s.getReg rb).toNat % 256) : AluWrites op mk f s ra rb := by
  have hcount : (mk (byteOfReg ra) (byteOfReg rb)).operandCount = 2 := by
    have hlength := encode_length (mk (byteOfReg ra) (byteOfReg rb))
    rw [henc] at hlength
    exact (Nat.succ.inj hlength).symm
  refine ⟨henc, _, exec_of_sequential hstage, ?_, ?_, ?_, ?_, ?_, ?_⟩
  · rwa [advance_getReg, getReg_setReg_same]
  · intro q hq
    rw [advance_getReg, getReg_setReg_other s v (List.ne_of_not_mem_cons hq)]
  · rw [advance_fl, setReg_fl]
  · intro a
    rw [advance_memRead, setReg_memRead]
  · rw [advance_out, setReg_out]
  · rw [hcount]
    exact afterContinue_advance (setReg_pc s ra v) (setReg_rs s ra v) 2

/-! ## The results as integers modulo 256 (R99) -/

/-- A byte is its own residue, and so is a quotient or a remainder of bytes. -/
theorem toNat_emod (v : Byte) : (v.toNat : Int) % 256 = v.toNat :=
  Int.emod_eq_of_lt (Int.natCast_nonneg _) (Int.ofNat_lt.2 v.isLt)

theorem aluAdd_toInt (x y : Byte) : ((aluAdd x y).toNat : Int) = ((x.toNat : Int) + y.toNat) % 256 := by
  exact_mod_cast aluAdd_toNat x y

theorem aluMul_toInt (x y : Byte) : ((aluMul x y).toNat : Int) = ((x.toNat : Int) * y.toNat) % 256 := by
  exact_mod_cast aluMul_toNat x y

theorem aluDiv_toInt (x y : Byte) : ((aluDiv x y).toNat : Int) = ((x.toNat : Int) / y.toNat) % 256 := by
  rw [← toNat_emod (aluDiv x y), aluDiv_toNat, Int.natCast_ediv]

theorem aluMod_toInt (x y : Byte) : ((aluMod x y).toNat : Int) = ((x.toNat : Int) % y.toNat) % 256 := by
  rw [← toNat_emod (aluMod x y), aluMod_toNat, Int.natCast_emod]

/-! ## The comparison (R95) -/

theorem compareFlags_of_eq {x y : Byte} (h : x.toNat = y.toNat) : compareFlags x y = flagE := if_pos h

theorem compareFlags_of_gt {x y : Byte} (h : y.toNat < x.toNat) : compareFlags x y = flagG := by
  rw [compareFlags, if_neg h.ne', if_pos h]

theorem compareFlags_of_lt {x y : Byte} (h : x.toNat < y.toNat) : compareFlags x y = flagL := by
  rw [compareFlags, if_neg h.ne, if_neg h.asymm]

end Sys2Proof.Machine
end

section
/-! The statements on the ALU (41_alu.md). -/

namespace Sys2Proof.Proofs

open Machine Claims

/-- Settles O11: the three stages are one, over three operations with exact results modulo 256. -/
theorem addSubMulWriteResultModulo256 : Obligations.AddSubMulWriteResultModulo256 := by
  intro s ra rb
  refine ⟨?add, ?sub, ?mul⟩
  case add => exact aluWrites_of_execStage rfl (aluStage_byteOfReg aluAdd s ra) (aluAdd_toInt _ _)
  case sub => exact aluWrites_of_execStage rfl (aluStage_byteOfReg aluSub s ra) (aluSub_toNat _ _)
  case mul => exact aluWrites_of_execStage rfl (aluStage_byteOfReg aluMul s ra) (aluMul_toInt _ _)

/-- Settles O12: the stage tests the divisor before it writes, and a quotient or remainder is its own residue. -/
theorem divModDivideOrFault : Obligations.DivModDivideOrFault := by
  intro s ra rb
  refine ⟨fun hne => ⟨?div, ?mod⟩, fun hzero => ⟨?divFault, ?modFault⟩⟩
  case div => exact aluWrites_of_execStage rfl (divideStage_of_ne_zero aluDiv s ra hne) (aluDiv_toInt _ _)
  case mod => exact aluWrites_of_execStage rfl (divideStage_of_ne_zero aluMod s ra hne) (aluMod_toInt _ _)
  case divFault => exact exec_of_divisionByZero (divideStage_of_eq_zero aluDiv s ra hzero)
  case modFault => exact exec_of_divisionByZero (divideStage_of_eq_zero aluMod s ra hzero)

/-- Settles O13: FL is the comparison's value, one of three by the unsigned order, and nothing else is written. -/
theorem cmpOverwritesFlags : Obligations.CmpOverwritesFlags := by
  intro s ra rb
  refine ⟨rfl, _, exec_of_sequential (i := .cmp _ _) (compareStage_byteOfReg s ra), ?_, ?_, ?_, ?_, ?_, ?_, ?_⟩
  · intro h
    rw [advance_fl, setFlags_fl, compareFlags_of_eq h]; rfl
  · intro h
    rw [advance_fl, setFlags_fl, compareFlags_of_gt h]; rfl
  · intro h
    rw [advance_fl, setFlags_fl, compareFlags_of_lt h]; rfl
  · intro q _
    rw [advance_getReg, setFlags_getReg]
  · intro a
    rw [advance_memRead, setFlags_memRead]
  · rw [advance_out, setFlags_out]
  · exact afterContinue_advance (setFlags_pc s _) (setFlags_rs s _) 2

/-- Settles O14: the written bytes are the quotient and remainder themselves, so the division theorem on `Nat`
applies. -/
theorem divAndModAgree : Obligations.DivAndModAgree := by
  intro s ra rb hne
  have hpos : 0 < (s.getReg rb).toNat := Nat.pos_of_ne_zero fun h => hne (BitVec.eq_of_toNat_eq h)
  refine ⟨_, _, exec_of_sequential (i := .div _ _) (divideStage_of_ne_zero aluDiv s ra hne),
    exec_of_sequential (i := .mod _ _) (divideStage_of_ne_zero aluMod s ra hne), ?_, ?_⟩
  · rw [advance_getReg, advance_getReg, getReg_setReg_same, getReg_setReg_same, aluDiv_toNat, aluMod_toNat]
    exact (Nat.div_add_mod' _ _).symm
  · rw [advance_getReg, getReg_setReg_same, aluMod_toNat]
    exact Nat.mod_lt _ hpos

end Sys2Proof.Proofs
end

section
/-! What jumps, CALL and RET answer, and which flag a comparison sets (42_control_flow.md R100 to R109). -/

open Sys2Proof.Claims

namespace Sys2Proof.Machine

/-! ## The cycle of a stage that jumps or faults (40_execution_cycle.md R76; 60_exceptions.md R166) -/

theorem exec_of_jump {i : Instr} {s t : State} {target : Byte} (h : execStage i s = .ok (t, .jump target)) :
    exec i s = .next (t.setPc target) := by
  rw [exec_eq_finish, h, finish_ok, follow_jump]

theorem exec_of_stageFault {i : Instr} {s : State} {r : FaultReason} (h : execStage i s = .error r) :
    exec i s = .next (faultedWith r s) := by
  rw [exec_eq_finish, h, finish_error]
  rfl

/-- The bytes after the opcode are the operands. -/
theorem operandCount_eq_of_encode {i : Instr} {op : Byte} {operands : List Byte} (h : encode i = op :: operands) :
    i.operandCount = operands.length := by
  have hlength := encode_length i
  rw [h, List.length_cons] at hlength
  exact (Nat.succ.inj hlength).symm

/-! ## Jumps (R101 to R107) -/

theorem jumpStage_byteOfReg (taken : Bool) (s : State) (ra : Reg) :
    jumpStage taken (byteOfReg ra) s = .ok (s, if taken then .jump (s.getReg ra) else .sequential) :=
  withReg_byteOfReg ra _

/-- An instruction of two bytes whose stage is the jump on `cond` does all that `JumpsExactlyWhen` asks. -/
theorem jumpsExactlyWhen_of_execStage {op : Byte} {mk : Byte → Instr} {cond : Byte → Bool}
    (henc : ∀ a, encode (mk a) = [op, a]) (hstage : ∀ a s, execStage (mk a) s = jumpStage (cond s.fl) a s) :
    JumpsExactlyWhen op mk cond := by
  intro s ra
  have hra := (hstage (byteOfReg ra) s).trans (jumpStage_byteOfReg _ s ra)
  refine ⟨henc _, ?_⟩
  cases hcond : cond s.fl with
  | true =>
    rw [hcond, if_pos rfl] at hra
    exact ⟨_, exec_of_jump hra, fun _ => ⟨rfl, rfl⟩, nofun, fun _ _ => rfl, rfl, fun _ => rfl, rfl⟩
  | false =>
    rw [hcond, if_neg Bool.false_ne_true] at hra
    have hcount : (mk (byteOfReg ra)).operandCount = 1 := operandCount_eq_of_encode (henc _)
    refine ⟨_, exec_of_sequential hra, nofun, fun _ => ?_, fun q _ => advance_getReg s _ q, advance_fl s _,
      fun a => advance_memRead s _ a, advance_out s _⟩
    rw [hcount]
    exact afterContinue_advance rfl rfl 1

/-! ## The flags after a comparison (41_alu.md R95) -/

/-- A comparison sets E, G and L exactly by the unsigned order of the compared bytes. -/
theorem compareFlags_getLsbD (x y : Byte) :
    (compareFlags x y).getLsbD 0 = decide (x.toNat = y.toNat) ∧
    (compareFlags x y).getLsbD 1 = decide (x.toNat > y.toNat) ∧
    (compareFlags x y).getLsbD 2 = decide (x.toNat < y.toNat) := by
  rcases lt_trichotomy x.toNat y.toNat with hlt | heq | hgt
  · rw [compareFlags_of_lt hlt]
    simp [flagL, hlt, hlt.ne, hlt.le]
  · rw [compareFlags_of_eq heq]
    simp [flagE, heq]
  · rw [compareFlags_of_gt hgt]
    simp [flagG, hgt, hgt.ne', hgt.le]

/-- CMP below the end of memory leaves the comparison in FL, goes on, and keeps the registers. -/
theorem exec_cmp_of_inside {s : State} (ra rb : Reg) (h : s.pc.toNat + 3 ≤ 255) :
    ∃ t, exec (.cmp (byteOfReg ra) (byteOfReg rb)) s = .next t ∧
      t.fl = compareFlags (s.getReg ra) (s.getReg rb) ∧ t.pc.toNat = s.pc.toNat + 3 ∧
      ∀ r, t.getReg r = s.getReg r :=
  ⟨_, exec_of_sequential (i := .cmp _ _) (compareStage_byteOfReg s ra), advance_fl _ 2,
    ((afterContinue_advance (setFlags_pc s _) (setFlags_rs s _) 2).1 h).1, advance_getReg _ 2⟩

/-- A jump whose condition on a comparison's flags is an order relation branches on that relation after CMP. -/
theorem branchesOnOrder_of_jumpsExactlyWhen {op : Byte} {mk : Byte → Instr} {cond : Byte → Bool}
    {rel : Nat → Nat → Prop} (hjump : JumpsExactlyWhen op mk cond)
    (hrel : ∀ x y, cond (compareFlags x y) = true ↔ rel x.toNat y.toNat) : BranchesOnOrder mk rel := by
  intro s ra rb rc hroom
  obtain ⟨t, hcmp, hfl, hpc, hreg⟩ := exec_cmp_of_inside (s := s) ra rb (by omega)
  obtain ⟨-, u, hexec, htaken, hfalls, -⟩ := hjump t rc
  rw [hfl] at htaken hfalls
  refine ⟨t, u, hcmp, hexec, fun h => ?_, fun h => ?_⟩
  · exact (htaken ((hrel _ _).2 h)).1.trans (hreg rc)
  · have hfalse := Bool.eq_false_iff.2 (mt (hrel _ _).1 h)
    have hnext := ((hfalls hfalse).1 (by omega)).1
    omega

/-! ## The checks and the push of the stack (43_stack.md R120 to R124) -/

section Stack

variable {s : State}

theorem lowerSp_of_eq_zero (h : s.getReg sp = 0) : lowerSp s = .error .stackOverflow := if_pos h

theorem lowerSp_of_ne_zero (h : s.getReg sp ≠ 0) : lowerSp s = .ok (s.setReg sp (pushSlot s)) := if_neg h

theorem stackTop_of_ge (h : 0xF4 ≤ (s.getReg sp).toNat) : stackTop s = .error .stackUnderflow := if_pos h

theorem stackTop_of_lt (h : (s.getReg sp).toNat < 0xF4) : stackTop s = .ok (s.memRead (s.getReg sp)) :=
  if_neg (Nat.not_le.2 h)

theorem getReg_pushByte_sp (v : Byte) : (s.pushByte v).getReg sp = pushSlot s := getReg_setReg_same s sp _

theorem getReg_pushByte_other (v : Byte) {q : Reg} (h : q ≠ sp) : (s.pushByte v).getReg q = s.getReg q :=
  getReg_setReg_other s _ h

theorem memRead_pushByte_other (v : Byte) {a : Byte} (h : a ≠ pushSlot s) :
    (s.pushByte v).memRead a = s.memRead a :=
  memRead_memWrite_other (s.setReg sp (pushSlot s)) v h

/-- Below 0xF4, raising SP does not wrap. -/
theorem toNat_getReg_raiseSp_sp (h : (s.getReg sp).toNat < 0xF4) :
    ((raiseSp s).getReg sp).toNat = (s.getReg sp).toNat + 1 := by
  rw [raiseSp_getReg_sp]
  bv_omega

/-! ## CALL and RET (R108, R109) -/

theorem callStage_of_past_end (ra : Reg) (h : 255 < s.pc.toNat + 2) :
    callStage (byteOfReg ra) s = .error .addressOutOfRange :=
  (withReg_byteOfReg ra _).trans (if_pos h)

theorem callStage_of_sp_eq_zero (ra : Reg) (hpc : s.pc.toNat + 2 ≤ 255) (hsp : s.getReg sp = 0) :
    callStage (byteOfReg ra) s = .error .stackOverflow := by
  rw [callStage, withReg_byteOfReg, if_neg (Nat.not_le.2 (Nat.lt_succ_of_le hpc)), lowerSp_of_eq_zero hsp]

/-- CALL with both checks passed pushes `pc + 2`, and reads its target after the push. -/
theorem callStage_of_sp_ne_zero (ra : Reg) (hpc : s.pc.toNat + 2 ≤ 255) (hsp : s.getReg sp ≠ 0) :
    callStage (byteOfReg ra) s =
      .ok (s.pushByte (BitVec.ofNat 8 (s.pc.toNat + 2)),
        .jump ((s.pushByte (BitVec.ofNat 8 (s.pc.toNat + 2))).getReg ra)) := by
  rw [callStage, withReg_byteOfReg, if_neg (Nat.not_le.2 (Nat.lt_succ_of_le hpc)), lowerSp_of_ne_zero hsp]
  rfl

theorem retStage_of_ge (h : 0xF4 ≤ (s.getReg sp).toNat) : retStage s = .error .stackUnderflow := by
  rw [retStage, stackTop_of_ge h]

theorem retStage_of_lt (h : (s.getReg sp).toNat < 0xF4) :
    retStage s = .ok (raiseSp s, .jump (s.memRead (s.getReg sp))) := by
  rw [retStage, stackTop_of_lt h]

end Stack

end Sys2Proof.Machine
end

section
/-! The statements on control flow (42_control_flow.md). -/

namespace Sys2Proof.Proofs

open Machine Claims

/-- Settles O15: JMP is the jump that is always taken. -/
theorem jmpSetsPcToRegister : Obligations.JmpSetsPcToRegister :=
  fun s ra => ⟨rfl, exec_of_jump (jumpStage_byteOfReg true s ra)⟩

/-- Settles O16: the six stages are one jump, over six conditions on FL. -/
theorem conditionalJumpsFollowFlags : Obligations.ConditionalJumpsFollowFlags := by
  refine ⟨?jeq, ?jne, ?jgt, ?jlt, ?jle, ?jge⟩
  all_goals exact jumpsExactlyWhen_of_execStage (fun _ => rfl) (fun _ _ => rfl)

/-- Settles O17: CMP leaves equality in E and the two strict orders in G and L, and each jump's condition combines
them into its relation. -/
theorem compareThenJumpBranchesOnOrder : Obligations.CompareThenJumpBranchesOnOrder := by
  obtain ⟨jeq, jne, jgt, jlt, jle, jge⟩ := conditionalJumpsFollowFlags
  refine ⟨branchesOnOrder_of_jumpsExactlyWhen jeq ?jeq, branchesOnOrder_of_jumpsExactlyWhen jne ?jne,
    branchesOnOrder_of_jumpsExactlyWhen jgt ?jgt, branchesOnOrder_of_jumpsExactlyWhen jlt ?jlt,
    branchesOnOrder_of_jumpsExactlyWhen jle ?jle, branchesOnOrder_of_jumpsExactlyWhen jge ?jge⟩
  all_goals
    intro x y
    obtain ⟨he, hg, hl⟩ := compareFlags_getLsbD x y
  case jeq => rw [he, decide_eq_true_iff]
  case jne => rw [he, Bool.not_eq_true', decide_eq_false_iff_not]
  case jgt => rw [hg, decide_eq_true_iff]
  case jlt => rw [hl, decide_eq_true_iff]
  case jle => rw [hl, he, Bool.or_eq_true, decide_eq_true_iff, decide_eq_true_iff, le_iff_lt_or_eq]
  case jge => rw [hg, he, Bool.or_eq_true, decide_eq_true_iff, decide_eq_true_iff, ge_iff_le, le_iff_lt_or_eq, eq_comm]

/-- Settles O18: each of the three outcomes of the stage ends its cycle, and the stored address is below 256. -/
theorem callPushesReturnAddressAndJumps : Obligations.CallPushesReturnAddressAndJumps := by
  intro s ra
  refine ⟨rfl, fun hpast => exec_of_stageFault (callStage_of_past_end ra hpast),
    fun hpc hsp => exec_of_stageFault (callStage_of_sp_eq_zero ra hpc hsp), fun hpc hsp hwf => ?_⟩
  have hslot := getReg_pushByte_sp (s := s) (BitVec.ofNat 8 (s.pc.toNat + 2))
  have hother := @getReg_pushByte_other s (BitVec.ofNat 8 (s.pc.toNat + 2))
  refine ⟨_, exec_of_jump (callStage_of_sp_ne_zero ra hpc hsp), ?_, hslot, ?_, rfl, ?_, ?_, rfl, rfl, rfl⟩
  · exact (congrArg BitVec.toNat hslot).trans (pushSlot_toNat hsp)
  · rw [setPc_memRead, memRead_pushByte_slot hwf]
    exact Nat.mod_eq_of_lt (Nat.lt_succ_of_le hpc)
  · exact fun q hq => hother (List.ne_of_not_mem_cons hq)
  · exact fun a ha => memRead_pushByte_other _ ha

/-- Settles O19: RET reads the top of the stack into PC and raises SP, which does not wrap below 0xF4. -/
theorem retPopsIntoPc : Obligations.RetPopsIntoPc := by
  intro s
  refine ⟨rfl, fun hge => exec_of_stageFault (i := .ret) (retStage_of_ge hge), fun hlt => ?_⟩
  exact ⟨_, exec_of_jump (i := .ret) (retStage_of_lt hlt), rfl, toNat_getReg_raiseSp_sp hlt,
    fun q hq => raiseSp_getReg_other s (List.ne_of_not_mem_cons hq), fun _ => rfl, rfl, rfl, rfl⟩

/-- Settles O20: CALL leaves SP at its slot, below 0xF4, with `pc + 2` in it, and RET pops that slot. -/
theorem callThenRetReturns : Obligations.CallThenRetReturns := by
  intro s t u ra hwf hpc hpos hle hcall husp humem
  have hsp : s.getReg 7 ≠ 0 := fun h => hpos.ne' (congrArg BitVec.toNat h)
  obtain ⟨-, -, -, hpush⟩ := callPushesReturnAddressAndJumps s ra
  obtain ⟨t', hcall', hdepth, hslot, hret, -⟩ := hpush hpc hsp hwf
  obtain rfl : t = t' := Host.Outcome.next.inj (hcall.symm.trans hcall')
  have hlt : (u.getReg 7).toNat < 0xF4 := by rw [husp, hdepth]; omega
  obtain ⟨-, -, hpop⟩ := retPopsIntoPc u
  obtain ⟨v, hexec, hvpc, hvsp, hregs, -⟩ := hpop hlt
  refine ⟨v, hexec, ?pc, BitVec.eq_of_toNat_eq ?sp, hregs⟩
  case pc => rw [hvpc, husp, hslot, humem, hret]
  case sp => rw [hvsp, husp, hdepth, Nat.sub_add_cancel hpos]

end Sys2Proof.Proofs
end

section
/-! What PUSH and POP answer for a register, and what a pop leaves in the registers (43_stack.md R120 to R122). -/

namespace Sys2Proof.Machine

@[simp] theorem pushByte_pc (s : State) (v : Byte) : (s.pushByte v).pc = s.pc := rfl
@[simp] theorem pushByte_rs (s : State) (v : Byte) : (s.pushByte v).rs = s.rs := rfl

/-- The store of a push changes no register. -/
theorem getReg_pushByte (s : State) (v : Byte) (q : Reg) :
    (s.pushByte v).getReg q = (s.setReg sp (pushSlot s)).getReg q := rfl

section Stack

variable {s : State}

theorem pushStage_of_sp_eq_zero (ra : Reg) (h : s.getReg sp = 0) :
    pushStage (byteOfReg ra) s = .error .stackOverflow := by
  rw [pushStage, withReg_byteOfReg, lowerSp_of_eq_zero h]

theorem popStage_of_ge (ra : Reg) (h : 0xF4 ≤ (s.getReg sp).toNat) :
    popStage (byteOfReg ra) s = .error .stackUnderflow := by
  rw [popStage, withReg_byteOfReg, stackTop_of_ge h]

theorem popStage_of_lt (ra : Reg) (h : (s.getReg sp).toNat < 0xF4) :
    popStage (byteOfReg ra) s = .ok (raiseSp (s.setReg ra (s.memRead (s.getReg sp))), .sequential) := by
  rw [popStage, withReg_byteOfReg, stackTop_of_lt h]

/-- A pop into another register than SP raises SP as it was before the pop. -/
theorem getReg_pop_sp_of_ne {ra : Reg} (v : Byte) (hra : ra ≠ sp) :
    (raiseSp (s.setReg ra v)).getReg sp = (raiseSp s).getReg sp := by
  rw [raiseSp_getReg_sp, raiseSp_getReg_sp, getReg_setReg_other s v hra.symm]

/-- A pop into SP leaves one more than the popped byte (R122). -/
theorem getReg_pop_sp_of_eq (v : Byte) : (raiseSp (s.setReg sp v)).getReg sp = v + 1#8 := by
  rw [raiseSp_getReg_sp, getReg_setReg_same]

end Stack

end Sys2Proof.Machine
end

section
/-! The statements on the stack (43_stack.md). -/

namespace Sys2Proof.Proofs

open Machine Claims

/-- Settles O21: the operand is read after SP is lowered, and storing it changes no register, so the slot and the
register agree afterwards, R7 included. -/
theorem pushLowersSpThenStores : Obligations.PushLowersSpThenStores := by
  intro s ra
  refine ⟨rfl, fun hzero => exec_of_stageFault (i := .push _) (pushStage_of_sp_eq_zero ra hzero), fun hsp hwf => ?_⟩
  have hexec := execPush_of_sp_ne_zero hsp ra
  have hslot := getReg_pushByte_sp (s := s) ((s.setReg sp (pushSlot s)).getReg ra)
  refine ⟨_, hexec, ?depth, ?slot, ?stored, registersChangeAsTabled _ _ _ hexec, ?memory, advance_fl _ 1,
    advance_out _ 1, afterContinue_advance (pushByte_pc s _) (pushByte_rs s _) 1⟩
  case depth => rw [advance_getReg]; exact (congrArg BitVec.toNat hslot).trans (pushSlot_toNat hsp)
  case slot => rw [advance_getReg]; exact hslot
  case stored => rw [advance_memRead, memRead_pushByte_slot hwf, advance_getReg, getReg_pushByte]
  case memory => intro a ha; rw [advance_memRead, memRead_pushByte_other _ ha]

/-- Settles O22: `x[a]` is written before SP is raised, so a pop into another register raises the old SP and a pop into
R7 raises the popped byte. -/
theorem popLoadsThenRaisesSp : Obligations.PopLoadsThenRaisesSp := by
  intro s ra
  refine ⟨rfl, fun hge => exec_of_stageFault (i := .pop _) (popStage_of_ge ra hge), fun hlt => ?_⟩
  have hexec := exec_of_sequential (i := .pop _) (popStage_of_lt ra hlt)
  refine ⟨_, hexec, ?other, ?self, ?regs, fun a => advance_memRead _ 1 a, advance_fl _ 1, advance_out _ 1,
    afterContinue_advance (raiseSp_pc (s.setReg ra _)) (raiseSp_rs (s.setReg ra _)) 1⟩
  case other =>
    intro hra
    rw [advance_getReg, advance_getReg]
    refine ⟨(raiseSp_getReg_other _ hra).trans (getReg_setReg_same s ra _), ?_⟩
    exact (congrArg BitVec.toNat (getReg_pop_sp_of_ne _ hra)).trans (toNat_getReg_raiseSp_sp hlt)
  case self =>
    rintro rfl
    rw [advance_getReg]
    exact (congrArg BitVec.toNat (getReg_pop_sp_of_eq _)).trans (BitVec.toNat_add _ 1#8)
  case regs =>
    have hwritten : writtenRegisters (.pop (byteOfReg ra)) = [ra, 7] := by simp [writtenRegisters]
    exact hwritten ▸ registersChangeAsTabled _ _ _ hexec

/-- Settles O23: PUSH leaves SP at its slot, below 0xF4, with the value of `x[r]` in it, and POP loads that slot and
raises SP back. -/
theorem pushThenPopMovesValue : Obligations.PushThenPopMovesValue := by
  intro s ra rb hwf hra hrb _ hpos hle
  have hsp : s.getReg 7 ≠ 0 := fun h => hpos.ne' (congrArg BitVec.toNat h)
  obtain ⟨-, -, hpush⟩ := pushLowersSpThenStores s ra
  obtain ⟨t, htexec, htdepth, htslot, htstored, htregs, -⟩ := hpush hsp hwf
  have hlt : (t.getReg 7).toNat < 0xF4 := by omega
  obtain ⟨-, -, hpop⟩ := popLoadsThenRaisesSp t rb
  obtain ⟨u, huexec, hother, -, huregs, -⟩ := hpop hlt
  obtain ⟨huloaded, hudepth⟩ := hother hrb
  have husp : u.getReg 7 = s.getReg 7 := BitVec.eq_of_toNat_eq (by omega)
  refine ⟨t, u, htexec, huexec, ?moved, husp, ?regs⟩
  case moved =>
    calc u.getReg rb = t.memRead (pushSlot s) := by rw [huloaded, htslot]
      _ = t.getReg ra := htstored
      _ = s.getReg ra := htregs ra (by simpa using hra)
  case regs =>
    intro q hq
    by_cases h7 : q = 7
    · rw [h7, husp]
    · have hqb : q ≠ rb := List.ne_of_not_mem_cons hq
      rw [huregs q (by simp [hqb, h7]), htregs q (by simpa using h7)]

end Sys2Proof.Proofs
end

section
/-! What LDI and PRN answer for a register, and the cycle of a stage that halts (44_load_print_halt.md R130 to
R132). -/

namespace Sys2Proof.Machine

theorem ldiStage_byteOfReg (s : State) (ra : Reg) (imm : Byte) :
    ldiStage (byteOfReg ra) imm s = .ok (s.setReg ra imm, .sequential) :=
  withReg_byteOfReg ra _

theorem prnStage_byteOfReg (s : State) (ra : Reg) :
    prnStage (byteOfReg ra) s = .ok (s.emit (s.getReg ra), .sequential) :=
  withReg_byteOfReg ra _

/-- The flow `Halt` changes RS and holds PC (40_execution_cycle.md R79). -/
theorem exec_of_halt {i : Instr} {s t : State} (h : execStage i s = .ok (t, .halt)) :
    exec i s = .next { t with rs := .halted } := by
  rw [exec_eq_finish, h, finish_ok, follow_halt]
  rfl

end Sys2Proof.Machine
end

section
/-! The statements on LDI, PRN and HLT (44_load_print_halt.md). -/

namespace Sys2Proof.Proofs

open Machine Claims

/-- Settles O27: HLT's stage writes nothing and asks to halt, and a halted state is terminal. -/
theorem hltHaltsInPlace : Obligations.HltHaltsInPlace :=
  fun _ => ⟨rfl, exec_of_halt (i := .hlt) rfl, fun k => terminalStatesAreFrozen k _ nofun⟩

/-- Settles O26: the stage emits one byte, and the advance keeps the output. -/
theorem prnEmitsRegister : Obligations.PrnEmitsRegister := by
  intro s ra
  refine ⟨rfl, _, exec_of_sequential (i := .prn _) (prnStage_byteOfReg s ra), ?out, ?regs, ?fl, ?memory,
    afterContinue_advance (emit_pc s _) (emit_rs s _) 1⟩
  case out => rw [advance_out, emit_out]
  case regs => intro q _; rw [advance_getReg, emit_getReg]
  case fl => rw [advance_fl, emit_fl]
  case memory => intro a; rw [advance_memRead, emit_memRead]

/-- Settles O25: the register holds the immediate after the advance, past the end of memory too, and PRN emits what
the register holds. -/
theorem ldiLoadsImmediate : Obligations.LdiLoadsImmediate := by
  intro s ra imm
  have hloaded : ((s.setReg ra imm).advance 2).getReg ra = imm :=
    (advance_getReg _ 2 ra).trans (getReg_setReg_same s ra imm)
  have hout : ((s.setReg ra imm).advance 2).out = s.out := advance_out _ 2
  obtain ⟨-, u, huexec, huout, -⟩ := prnEmitsRegister ((s.setReg ra imm).advance 2) ra
  refine ⟨rfl, _, exec_of_sequential (i := .ldi _ _) (ldiStage_byteOfReg s ra imm), hloaded, ?regs, ?fl, ?memory,
    hout, afterContinue_advance (setReg_pc s ra imm) (setReg_rs s ra imm) 2, u, huexec, ?printed⟩
  case regs => intro q hq; rw [advance_getReg, getReg_setReg_other s imm (List.ne_of_not_mem_cons hq)]
  case fl => rw [advance_fl, setReg_fl]
  case memory => intro a; rw [advance_memRead, setReg_memRead]
  case printed => rw [huout, hloaded, hout]

end Sys2Proof.Proofs
end

section
/-! What the output is after a completed stage, and what the loader and the events of the host do to a session
(50_interfaces.md R141 to R149). -/

namespace Sys2Proof.Machine

/-! ## Output (R145) -/

/-- The output after a stage is as before, or with the register of a PRN appended. -/
theorem StageEffect.out_cases {s t : State} {i : Instr} {f : Flow} (h : StageEffect s i t f) :
    t.out = s.out ∨ ∃ a ra, i = .prn a ∧ regOfByte a = some ra ∧ t.out = s.out ++ [s.getReg ra] := by
  cases h with
  | emit ha => exact .inr ⟨_, _, rfl, ha, rfl⟩
  | setReg | compare | branch | push | call | pop | ret | halt => exact .inl rfl

/-! ## The loader (R142, R143) -/

theorem load_of_fits (s : State) {image : List Byte} (h : image.length ≤ 256) :
    s.load image = .next { s with mem := s.mem.writeAll 0 image } := if_pos h

theorem load_of_too_long (s : State) {image : List Byte} (h : 256 < image.length) :
    s.load image = .refused .imageTooLong := if_neg (Nat.not_le.2 h)

/-- A load that is answered wrote memory and nothing else. -/
theorem load_next {s t : State} {image : List Byte} (h : s.load image = .next t) :
    image.length ≤ 256 ∧ t = { s with mem := s.mem.writeAll 0 image } := by
  rcases Nat.lt_or_ge 256 image.length with hlong | hfits
  · rw [load_of_too_long s hlong] at h
    cases h
  · rw [load_of_fits s hfits] at h
    exact ⟨hfits, (Host.Outcome.next.inj h).symm⟩

/-! ## The passing of a cycle (R146) -/

theorem react_cycle_of_withdrawn {h : HostSession} (hrun : h.run = false) : h.react .cycle = .next h := by
  simp [HostSession.react, hrun]

theorem react_cycle_of_step {h : HostSession} {s : State} (hrun : h.run = true) (hstep : step h.core = .next s) :
    h.react .cycle = .next { h with core := s, phase := .started } := by
  simp [HostSession.react, hrun, hstep]

/-! ## The core after an event (R141, R149) -/

/-- A host event other than Reset leaves the core, loads an image into it, or lets it make one step. -/
theorem react_next_core {h h' : HostSession} {e : HostEvent} (he : e ≠ .reset) (hreact : h.react e = .next h') :
    h'.core = h.core ∨ (∃ image, h.core.load image = .next h'.core) ∨ step h.core = .next h'.core := by
  cases e with
  | reset => exact absurd rfl he
  | load image =>
    refine .inr (.inl ⟨image, ?_⟩)
    simp only [HostSession.react] at hreact
    split at hreact
    · split at hreact <;> cases hreact
      assumption
    · cases hreact
  | setRun on => cases hreact; exact .inl rfl
  | cycle =>
    cases hrun : h.run with
    | false =>
      rw [react_cycle_of_withdrawn hrun] at hreact
      cases hreact; exact .inl rfl
    | true =>
      simp only [HostSession.react, hrun, if_true] at hreact
      split at hreact <;> cases hreact
      exact .inr (.inr ‹_›)

/-! ## Status (R147) -/

theorem status_of_running {s : State} (h : s.rs = .running) : s.rsSignal = 0 ∧ s.faultCode = 0 := by
  simp [State.rsSignal, State.faultCode, h]

theorem status_of_halted {s : State} (h : s.rs = .halted) : s.rsSignal = 1 ∧ s.faultCode = 0 := by
  simp [State.rsSignal, State.faultCode, h]

theorem status_of_faulted {s : State} {r : FaultReason} (h : s.rs = .faulted r) :
    s.rsSignal = 2 ∧ s.faultCode = r.code := by
  simp [State.rsSignal, State.faultCode, h]

end Sys2Proof.Machine
end

section
/-! The statements on the interfaces of the core (50_interfaces.md). -/

namespace Sys2Proof.Proofs

open Machine Claims

/-- Settles O36: the one stage that delivers a byte is PRN's, and the end of its cycle keeps the output. -/
theorem onlyPrnProducesOutput : Obligations.OnlyPrnProducesOutput := by
  intro s u h
  rcases step_effect h with ⟨-, -, -, hout⟩ | ⟨i, rest, t, f, hd, ht, rfl⟩
  · exact .inl hout
  · rw [follow_out]
    rcases ht.out_cases with hout | ⟨a, ra, rfl, ha, hout⟩
    · exact .inl hout
    · exact .inr ⟨a, ra, rest, hd, ha, hout⟩

/-- Settles O44: of the other events only a load and a cycle touch the core; a load writes memory alone, and a step of
a terminal core answers that core. -/
theorem resetAloneLeavesTerminalStates : Obligations.ResetAloneLeavesTerminalStates := by
  intro h
  refine ⟨⟨HostSession.afterReset, rfl, rfl⟩, fun e h' he hreact hterminal => ?_⟩
  rcases react_next_core he hreact with hcore | ⟨image, hload⟩ | hstep
  · rw [hcore]
  · obtain ⟨-, hcore⟩ := load_next hload
    rw [hcore]
  · rw [step_of_terminal hterminal] at hstep
    rw [← Host.Outcome.next.inj hstep]

/-- Settles O42: the length is the loader's one check. -/
theorem loaderRefusesLongImage : Obligations.LoaderRefusesLongImage :=
  fun s _ hlong => load_of_too_long s hlong

/-- Settles O43: loading no bytes writes no cell, and the zero byte fetched at reset is no opcode. -/
theorem emptyImageFaultsAtOnce : Obligations.EmptyImageFaultsAtOnce := by
  have hdecode : decode State.reset.fetchBytes = .error .unknownOpcode := rfl
  exact ⟨load_of_fits State.reset (Nat.zero_le 256), step_of_decodeError rfl hdecode⟩

/-- Settles O45: `run` alone decides whether a cycle passes as one step of the core. -/
theorem runEnableGatesCycles : Obligations.RunEnableGatesCycles :=
  fun _ => ⟨react_cycle_of_withdrawn, fun hrun _ hstep => ⟨_, react_cycle_of_step hrun hstep, rfl, hrun⟩⟩

/-- Settles O46: one rule for each kind of run state, the faults' by their reason's code. -/
theorem statusTellsHowARunEnded : Obligations.StatusTellsHowARunEnded :=
  fun _ => ⟨status_of_running, status_of_halted, status_of_faulted, status_of_faulted, status_of_faulted,
    status_of_faulted, status_of_faulted, status_of_faulted⟩

end Sys2Proof.Proofs
end

section
/-! Which fault a cycle takes, stage by stage: the fetch, the register check, the instruction's own check and the PC
update (60_exceptions.md R161 to R166). -/

open Sys2Proof.Claims

namespace Sys2Proof

/-- Bytes that end too early are fewer than the operands of an instruction with their opcode. -/
theorem exists_operandCount_gt_of_missingByte {op : Byte} {tail : List Byte}
    (h : decode (op :: tail) = .error .missingByte) :
    ∃ i, (encode i).head? = some op ∧ tail.length < i.operandCount := by
  cases hform : lookupOpcode op with
  | none => simp [decode, hform] at h
  | some form =>
    have henc := lookupOpcode_encodesAs hform
    cases form with
    | f0 i => rw [decode_of_f0 hform] at h; cases h
    | f1 mk =>
      have hmk : encode (mk 0) = [op, 0] := henc 0
      have hcount : (mk 0).operandCount = 1 := Machine.operandCount_eq_of_encode hmk
      match tail, h with
      | [], _ => exact ⟨mk 0, by rw [hmk, List.head?_cons], by rw [hcount]; simp⟩
      | a :: tail, h => rw [decode_of_f1 hform] at h; cases h
    | f2 mk =>
      have hmk : encode (mk 0 0) = [op, 0, 0] := henc 0 0
      have hcount : (mk 0 0).operandCount = 2 := Machine.operandCount_eq_of_encode hmk
      match tail, h with
      | [], _ | [_], _ => exact ⟨mk 0 0, by rw [hmk, List.head?_cons], by rw [hcount]; simp⟩
      | a :: b :: tail, h => rw [decode_of_f2 hform] at h; cases h

end Sys2Proof

namespace Sys2Proof.Machine

/-! ## The fetch (R164, steps 1 and 2) -/

theorem lt_length_fetchBytes {s : State} {k : Nat} (hk : k ≤ 2) (h : s.pc.toNat + k ≤ 255) :
    k < s.fetchBytes.length :=
  (List.getElem?_eq_some_iff.1 (fetchBytes_getElem? hk h)).1

/-- The decoder rejects the opcode of a fetch exactly when the byte at PC is not assigned. -/
theorem decode_fetchBytes_eq_unknownOpcode_iff {s : State} :
    decode s.fetchBytes = .error .unknownOpcode ↔ s.memRead s.pc ∉ assignedOpcodes := by
  obtain ⟨tail, htail⟩ := fetchBytes_head s
  rw [htail]
  constructor
  · intro hd hop
    cases decode_error_of_assigned hop hd
  · intro hop
    simp [decode, lookupOpcode_eq_none_iff.2 hop]

/-- The decoder is short of a byte exactly when an assigned opcode's last operand byte would lie past address 255. -/
theorem decode_fetchBytes_eq_missingByte_iff {s : State} :
    decode s.fetchBytes = .error .missingByte ↔
      s.memRead s.pc ∈ assignedOpcodes ∧ 255 < s.pc.toNat + ((s.memRead s.pc).extractLsb 7 6).toNat := by
  refine ⟨fun hd => ⟨?assigned, ?past⟩, fun ⟨hop, hpast⟩ => decode_fetchBytes_of_past_end hop hpast⟩
  case assigned =>
    by_contra hop
    rw [decode_fetchBytes_eq_unknownOpcode_iff.2 hop] at hd
    cases hd
  case past =>
    obtain ⟨tail, htail⟩ := fetchBytes_head s
    obtain ⟨i, hhead, hshort⟩ := exists_operandCount_gt_of_missingByte (htail ▸ hd)
    have hlength : s.fetchBytes.length = tail.length + 1 := by rw [htail, List.length_cons]
    rw [extractLsb_of_head?_encode hhead]
    by_contra hroom
    have hseen := lt_length_fetchBytes (operandCount_le_two i) (Nat.le_of_not_lt hroom)
    omega

/-- The bytes of a fetched instruction all lie below address 256. -/
theorem pc_add_operandCount_le_of_decode {s : State} {i : Instr} {rest : List Byte}
    (hd : decode s.fetchBytes = .ok (i, rest)) : s.pc.toNat + i.operandCount ≤ 255 := by
  have hfit := fetchBytes_length_le s
  rw [eq_encode_append_of_decode hd, List.length_append, encode_length] at hfit
  omega

/-- Bytes that are no instruction fault in the fetch. -/
theorem firstFault_of_decodeError {s : State} {e : DecodeError} (hd : decode s.fetchBytes = .error e) :
    firstFault s = some (faultOfDecodeError e) := by
  cases e with
  | unknownOpcode => exact if_pos (decode_fetchBytes_eq_unknownOpcode_iff.1 hd)
  | missingByte =>
    obtain ⟨hop, hpast⟩ := decode_fetchBytes_eq_missingByte_iff.1 hd
    exact (if_neg (not_not.2 hop)).trans (if_pos hpast)

/-- A fetched instruction has passed the checks of the fetch. -/
theorem firstFault_of_decode {s : State} {i : Instr} {rest : List Byte} (hd : decode s.fetchBytes = .ok (i, rest)) :
    firstFault s = instrFault s i := by
  have hop : s.memRead s.pc ∈ assignedOpcodes := by
    by_contra hop
    rw [decode_fetchBytes_eq_unknownOpcode_iff.2 hop] at hd
    cases hd
  have hroom := pc_add_operandCount_le_of_decode hd
  rw [← extractLsb_of_head?_encode (memRead_pc_of_decode hd)] at hroom
  rw [firstFault, if_neg (not_not.2 hop), if_neg (Nat.not_lt.2 hroom), hd]

/-! ## The instruction's own check (R164, step 4) -/

/-- The fault an execute stage answers. -/
def ExecResult.fault? : ExecResult → Option FaultReason
  | .error r => some r
  | .ok _ => none

section Stages

variable (s : State) (ra rb : Reg)

theorem divideStage_fault? (g : Byte → Byte → Byte) :
    (divideStage g (byteOfReg ra) (byteOfReg rb) s).fault? =
      if s.getReg rb = 0 then some .divisionByZero else none := by
  by_cases h : s.getReg rb = 0
  · rw [if_pos h, divideStage_of_eq_zero g s ra h]; rfl
  · rw [if_neg h, divideStage_of_ne_zero g s ra h]; rfl

theorem pushStage_fault? :
    (pushStage (byteOfReg ra) s).fault? = if s.getReg sp = 0 then some .stackOverflow else none := by
  by_cases h : s.getReg sp = 0
  · rw [if_pos h, pushStage_of_sp_eq_zero ra h]; rfl
  · rw [if_neg h, pushStage, withReg_byteOfReg, lowerSp_of_ne_zero h]; rfl

theorem popStage_fault? :
    (popStage (byteOfReg ra) s).fault? = if 0xF4 ≤ (s.getReg sp).toNat then some .stackUnderflow else none := by
  by_cases h : 0xF4 ≤ (s.getReg sp).toNat
  · rw [if_pos h, popStage_of_ge ra h]; rfl
  · rw [if_neg h, popStage_of_lt ra (Nat.lt_of_not_le h)]; rfl

theorem retStage_fault? :
    (retStage s).fault? = if 0xF4 ≤ (s.getReg sp).toNat then some .stackUnderflow else none := by
  by_cases h : 0xF4 ≤ (s.getReg sp).toNat
  · rw [if_pos h, retStage_of_ge h]; rfl
  · rw [if_neg h, retStage_of_lt (Nat.lt_of_not_le h)]; rfl

/-- CALL checks its return address before the stack. -/
theorem callStage_fault? :
    (callStage (byteOfReg ra) s).fault? =
      if 255 < s.pc.toNat + 2 then some .addressOutOfRange
      else if s.getReg sp = 0 then some .stackOverflow else none := by
  by_cases hpc : 255 < s.pc.toNat + 2
  · rw [if_pos hpc, callStage_of_past_end ra hpc]; rfl
  · have hroom := Nat.le_of_not_lt hpc
    rw [if_neg hpc]
    by_cases h : s.getReg sp = 0
    · rw [if_pos h, callStage_of_sp_eq_zero ra hroom h]; rfl
    · rw [if_neg h, callStage_of_sp_ne_zero ra hroom h]; rfl

end Stages

/-- A register byte that passes the check is the byte of a register. -/
theorem exists_eq_byteOfReg {a : Byte} (h : [a].all regByteOk = true) : ∃ ra, a = byteOfReg ra := by
  obtain ⟨ra, hra⟩ := exists_regOfByte (List.all_eq_true.1 h a (.head _))
  exact ⟨ra, (byteOfReg_of_regOfByte hra).symm⟩

theorem exists_eq_byteOfReg_pair {a b : Byte} (h : [a, b].all regByteOk = true) :
    ∃ ra rb, a = byteOfReg ra ∧ b = byteOfReg rb := by
  obtain ⟨ha, hb⟩ : [a].all regByteOk = true ∧ [b].all regByteOk = true := by simpa using h
  obtain ⟨ra, rfl⟩ := exists_eq_byteOfReg ha
  obtain ⟨rb, rfl⟩ := exists_eq_byteOfReg hb
  exact ⟨ra, rb, rfl, rfl⟩

/-- The execute stage of an instruction that passed the register check answers the instruction's own fault. -/
theorem execStage_fault? {i : Instr} (h : i.wellFormed = true) (s : State) :
    (execStage i s).fault? = ownFault s i := by
  cases i with
  | add a b | sub a b | mul a b =>
    obtain ⟨ra, rb, rfl, rfl⟩ := exists_eq_byteOfReg_pair h
    exact congrArg ExecResult.fault? (aluStage_byteOfReg _ s ra)
  | div a b | mod a b =>
    obtain ⟨ra, rb, rfl, rfl⟩ := exists_eq_byteOfReg_pair h
    simp [execStage, ownFault, divideStage_fault?]
  | cmp a b =>
    obtain ⟨ra, rb, rfl, rfl⟩ := exists_eq_byteOfReg_pair h
    exact congrArg ExecResult.fault? (compareStage_byteOfReg s ra)
  | jmp a | jeq a | jne a | jgt a | jlt a | jle a | jge a =>
    obtain ⟨ra, rfl⟩ := exists_eq_byteOfReg h
    exact congrArg ExecResult.fault? (jumpStage_byteOfReg _ s ra)
  | call a =>
    obtain ⟨ra, rfl⟩ := exists_eq_byteOfReg h
    exact callStage_fault? s ra
  | push a =>
    obtain ⟨ra, rfl⟩ := exists_eq_byteOfReg h
    exact pushStage_fault? s ra
  | pop a =>
    obtain ⟨ra, rfl⟩ := exists_eq_byteOfReg h
    exact popStage_fault? s ra
  | ldi a imm =>
    obtain ⟨ra, rfl⟩ := exists_eq_byteOfReg h
    exact congrArg ExecResult.fault? (ldiStage_byteOfReg s ra imm)
  | prn a =>
    obtain ⟨ra, rfl⟩ := exists_eq_byteOfReg h
    exact congrArg ExecResult.fault? (prnStage_byteOfReg s ra)
  | ret => exact retStage_fault? s
  | hlt => rfl

/-! ## The whole cycle of an instruction (R164, steps 3 to 5) -/

/-- A fault of the execute stage is the first of the instruction. -/
theorem instrFault_of_stageError {i : Instr} {s : State} {r : FaultReason} (h : execStage i s = .error r) :
    instrFault s i = some r := by
  by_cases hwf : i.wellFormed = true
  · have hown : ownFault s i = some r := by rw [← execStage_fault? hwf, h]; rfl
    simp [instrFault, hwf, hown]
  · rw [Bool.not_eq_true] at hwf
    obtain rfl : FaultReason.registerIndexOutOfRange = r :=
      Except.error.inj ((execStage_of_not_wellFormed hwf s).symm.trans h)
    exact if_pos hwf

/-- After a completed execute stage only the advance past the end of memory can fault. -/
theorem instrFault_of_stageOk {i : Instr} {s t : State} {f : Flow} (h : execStage i s = .ok (t, f)) :
    instrFault s i =
      if f = .sequential ∧ 255 < s.pc.toNat + i.operandCount + 1 then some .addressOutOfRange else none := by
  have hwf : i.wellFormed = true := by
    by_contra hbad
    rw [execStage_of_not_wellFormed (Bool.eq_false_of_not_eq_true hbad)] at h
    cases h
  have hown : ownFault s i = none := by rw [← execStage_fault? hwf, h]; rfl
  simp [instrFault, hwf, hown, flow_eq_sequential_iff h]

/-- The PC update faults exactly when it advances past the end of memory (R164, step 5). -/
theorem follow_rs_eq_faulted_iff {t : State} {c : Nat} {f : Flow} {r : FaultReason} (ht : t.rs = .running) :
    (t.follow c f).rs = .faulted r ↔ f = .sequential ∧ 255 < t.pc.toNat + c + 1 ∧ r = .addressOutOfRange := by
  cases f with
  | sequential =>
    obtain ⟨hin, hpast⟩ := advance_pc_rs t c
    rcases Nat.lt_or_ge 255 (t.pc.toNat + c + 1) with hc | hc
    · simp [(hpast hc).2, hc, eq_comm]
    · simp [(hin hc).2, ht, Nat.not_lt.2 hc]
  | jump target => simp [ht]
  | halt => simp

/-- The cycle of an instruction faults exactly with the instruction's first fault. -/
theorem exec_rs_eq_faulted_iff {i : Instr} {s u : State} {r : FaultReason} (hs : s.rs = .running)
    (h : exec i s = .next u) : u.rs = .faulted r ↔ instrFault s i = some r := by
  rw [exec_eq_finish] at h
  rcases finish_next h with ⟨r', hstage, rfl⟩ | ⟨t, f, hstage, rfl⟩
  · simp [instrFault_of_stageError hstage]
  · obtain ⟨hpc, hrs⟩ := execStage_pc_rs hstage
    rw [follow_rs_eq_faulted_iff (hrs.trans hs), instrFault_of_stageOk hstage, hpc]
    simp [and_assoc, eq_comm]

/-- A stage that continues does so with the same writes from any PC. -/
theorem execStage_setPc_of_sequential {i : Instr} {s t : State} (h : execStage i s = .ok (t, .sequential)) (p : Byte) :
    execStage i (s.setPc p) = .ok (t.setPc p, .sequential) := by
  have hi : continues s.fl i = true := (flow_eq_sequential_iff h).1 rfl
  rw [(unseen_setPc (ne_call_of_continues hi) p).execStage_eq, h, mapState_ok]

end Sys2Proof.Machine
end

section
/-! The statements on faults (60_exceptions.md). -/

namespace Sys2Proof.Proofs

open Machine Claims

/-- Settles O29: a fault before the writes changes RS alone; the PC update faults only in the last byte of memory, where
the instruction has made the writes it makes at address 0. -/
theorem faultsArePrecise : Obligations.FaultsArePrecise := by
  intro s u r hs h hu
  rcases step_next h with ⟨hns, -⟩ | ⟨-, _, -, rfl⟩ | ⟨-, i, rest, hd, ⟨_, -, rfl⟩ | ⟨t, f, hstage, rfl⟩⟩
  · exact absurd hs hns
  · rw [← RunState.faulted.inj hu]
    exact .inl rfl
  · rw [← RunState.faulted.inj hu]
    exact .inl rfl
  · obtain ⟨hpc, hrs⟩ := execStage_pc_rs hstage
    obtain ⟨rfl, hpast, rfl⟩ := (follow_rs_eq_faulted_iff (hrs.trans hs)).1 hu
    have hfit := pc_add_operandCount_le_of_decode hd
    have hlast : s.pc.toNat + i.operandCount = 255 := by rw [hpc] at hpast; omega
    have hroom : (t.setPc 0).pc.toNat + i.operandCount + 1 ≤ 255 := by
      have hcount := operandCount_le_two i
      show 0 + i.operandCount + 1 ≤ 255
      omega
    refine .inr ⟨rfl, i, rest, _, hd, (flow_eq_sequential_iff hstage).1 rfl, hlast,
      exec_of_sequential (execStage_setPc_of_sequential hstage 0), ?running, ?writes⟩
    case running => exact ((advance_pc_rs _ _).1 hroom).2.trans (hrs.trans hs)
    case writes =>
      rw [follow_sequential, advance_past hpast, advance_inside hroom, ← hpc]
      rfl

/-- Settles O30: bytes that are no instruction fault in the fetch, and an instruction with its own first fault. -/
theorem firstFaultInStageOrder : Obligations.FirstFaultInStageOrder := by
  intro s u r hs h
  cases hd : decode s.fetchBytes with
  | error e =>
    rw [step_of_decodeError hs hd, Host.Outcome.next.injEq] at h
    subst h
    simp [firstFault_of_decodeError hd]
  | ok p =>
    rw [step_of_decode hs hd] at h
    rw [firstFault_of_decode hd]
    exact exec_rs_eq_faulted_iff hs h

/-- Settles O6: the decoder finds no row for the byte at PC. -/
theorem unassignedOpcodeFaults : Obligations.UnassignedOpcodeFaults :=
  fun _ hs hop => step_of_decodeError hs (decode_fetchBytes_eq_unknownOpcode_iff.2 hop)

end Sys2Proof.Proofs
end

section
/-! What an answered load leaves in memory, and that it keeps the invariant (50_interfaces.md R142, R143). -/

namespace Sys2Proof.Machine

/-- The cells below the image's length hold its bytes, the others what they held before (R142). -/
theorem memRead_of_load {s t : State} {image : List Byte} (hwf : s.mem.wf) (h : s.load image = .next t) (k : Byte) :
    t.memRead k = image.getD k.toNat (s.memRead k) := by
  obtain ⟨hfits, rfl⟩ := load_next h
  have hread := Memory.read_writeAll k.toNat image 0 hwf ((Nat.zero_add _).trans_le hfits)
  simpa [State.memRead] using hread

theorem load_keeps_inv {s t : State} {image : List Byte} (hs : s.Inv) (h : s.load image = .next t) : t.Inv := by
  obtain ⟨hfits, rfl⟩ := load_next h
  obtain ⟨hwf, hfl⟩ := hs
  exact ⟨Memory.writeAll_wf image 0 hwf ((Nat.zero_add _).trans_le hfits), hfl⟩

end Sys2Proof.Machine
end

section
/-! The statements on reset and the launch state (70_reset_and_hazards.md). -/

namespace Sys2Proof.Proofs

open Machine Claims

/-- Settles O41: the load writes the image over the zero memory of reset, keeps every other piece of the reset state,
and keeps the invariant. -/
theorem launchState : Obligations.LaunchState := by
  intro P hfits
  obtain ⟨hregs, hpc, hfl, hrs, hmem, hout⟩ := resetState
  obtain ⟨hwf, -⟩ := resetMeetsInvariant
  have hload := load_of_fits State.reset hfits
  refine ⟨_, hload, fun k => ?image, hregs, hpc, hfl, hrs, hout, load_keeps_inv resetMeetsInvariant hload⟩
  case image => rw [memRead_of_load hwf hload, hmem]

end Sys2Proof.Proofs
end
